-- ==== Sys2Proof/Word.lean ====
section
/-! DEFINITION. The value types of the block (spec/00_scope.md rules R9 and R12).
Every value is an unsigned bit vector; the block does no signed arithmetic. -/

namespace Sys2Proof

/-- An 8-bit unsigned value (R12). -/
abbrev Byte := BitVec 8

/-- A 16-bit unsigned value: the instruction word (R12, R60). -/
abbrev Word := BitVec 16

/-- A 9-bit unsigned memory address, 0 to 511 (R12, R41). -/
abbrev Addr := BitVec 9

/-- The 3-bit opcode field (R9, R63). -/
abbrev Opcode := BitVec 3

/-- The 16-bit length field, 0 to 65535 (R65). -/
abbrev Len := BitVec 16

/-- A frame: a finite sequence of bytes, byte 0 first (R13, R64). -/
abbrev Frame := List Byte

end Sys2Proof
end

