-- ==== Sys2Proof/Config.lean ====
section
/-! DEFINITION. The implementation parameters of the block (spec/00_scope.md rules R9 and R10):
the fixed numbers, and the two parameters the spec leaves open. -/

namespace Sys2Proof.Config

/-- `MEM_SIZE`: 512 bytes, addresses 0 to 511 (R9, R40). -/
def memSize : Nat := 512

/-- `MAX_ADDRESS` (R9). -/
def maxAddress : Nat := 511

/-- `MAX_LEN`: the largest value of the 16-bit length field (R9, R65). -/
def maxLen : Nat := 65535

/-- `INIT_MEMORY : Fin 512 → Byte`, the memory contents at construction (R10(a), R182): an OPEN
parameter. No source gives it, so it has no body and no proof can see a value of it.
Log entry 3. -/
opaque initMemory : Addr → Byte

/-- `TRANSPORT_DELAY`, the optional delay a test may inject into the transport (R10(b), R195).
The spec gives it no unit and no effect: no rule reads it, and no definition of this model does.
Log entry 26. -/
opaque transportDelay : Option Nat

end Sys2Proof.Config
end

