-- ==== Sys2Proof/Syntax.lean ====
section
/-! DEFINITION. The instructions: one constructor for each row of spec/opcode_table.json, that is one
for each value of the 3-bit opcode field (spec/30_encoding.md rule R63). -/

namespace Sys2Proof

/-- A command, as the decoder reads it from a frame (R63, R64). Every word carries a 9-bit address,
also where the command ignores it (R71); a READ carries its length field and a WRITE its payload,
whose length is the length field (R65). -/
inductive Instr where
  /-- READ, opcode `0b011`, format HL (R102). -/
  | read (a : Addr) (len : Len)
  /-- WRITE, opcode `0b010`, format HLP (R103, R104). -/
  | write (a : Addr) (payload : List Byte)
  /-- WREN, opcode `0b110`, format H; the address is ignored (R105, R71). -/
  | wren (a : Addr)
  /-- WRDI, opcode `0b100`, format H; the address is ignored (R106, R71). -/
  | wrdi (a : Addr)
  /-- RDSR, opcode `0b101`: named and not dispatched (R108). -/
  | rdsr (a : Addr)
  /-- WRSR, opcode `0b001`: named and not dispatched (R109). -/
  | wrsr (a : Addr)
  /-- The unassigned opcode `0b000` (R110). -/
  | unassigned000 (a : Addr)
  /-- The unassigned opcode `0b111` (R110). -/
  | unassigned111 (a : Addr)
  deriving DecidableEq, Repr

end Sys2Proof
end

