-- ==== Sys2Proof/WellFormed.lean ====
section
/-! DEFINITION. Which terms of `Instr` a frame can carry: the length field has 16 bits, so a WRITE's
payload has at most 65535 bytes (spec/00_scope.md rule R9, spec/30_encoding.md rule R65).
Every other field's width is in its type. -/

namespace Sys2Proof

/-- The instruction can be encoded: its payload's length fits the length field (R65). -/
def Instr.wellFormed : Instr → Bool
  | .read _ _ => true
  | .write _ payload => payload.length ≤ Config.maxLen
  | .wren _ => true
  | .wrdi _ => true
  | .rdsr _ => true
  | .wrsr _ => true
  | .unassigned000 _ => true
  | .unassigned111 _ => true

end Sys2Proof
end

