-- ==== Sys2Proof/Decode.lean ====
section
/-! DEFINITION. The frame decoder and encoder: the word codec of spec/40_codec.md, and the frame
formats of spec/30_encoding.md with the frame checks of rule R66. The decoder is total on any
sequence of bytes and rejects a malformed frame by name. -/

namespace Sys2Proof

/-! ## Byte order (R12, R84) -/

/-- `le16(lo, hi) = zext_16(lo) | (zext_16(hi) << 8)` (R12). -/
def le16 (lo hi : Byte) : BitVec 16 := lo.setWidth 16 ||| (hi.setWidth 16 <<< 8)

/-- `lo(x) = x & 0xFF` (R72, R84). -/
def loByte (x : BitVec 16) : Byte := (x &&& 0xFF#16).setWidth 8

/-- `hi(x) = x >> 8` (R72, R84). -/
def hiByte (x : BitVec 16) : Byte := (x >>> 8).setWidth 8

/-! ## The opcode map (R63) -/

def opWRSR : Opcode := 0b001#3
def opWRITE : Opcode := 0b010#3
def opREAD : Opcode := 0b011#3
def opWRDI : Opcode := 0b100#3
def opRDSR : Opcode := 0b101#3
def opWREN : Opcode := 0b110#3
/-- The unassigned opcodes (R110). -/
def opUnassigned000 : Opcode := 0b000#3
def opUnassigned111 : Opcode := 0b111#3

/-! ## The word codec (R80, R81) -/

/-- ENCODE: `zext_16(op) | (zext_16(a) << 3)` (R80). The precondition `a <= 511` is the type's. -/
def encodeWord (op : Opcode) (a : Addr) : Word := op.setWidth 16 ||| (a.setWidth 16 <<< 3)

/-- DECODE: `(w & 0x7, (w >> 3) & 0x1FF)`; bits 15..12 do not matter (R81, R69). -/
def decodeWord (w : Word) : Opcode × Addr :=
  ((w &&& 0x7#16).setWidth 3, ((w >>> 3) &&& 0x1FF#16).setWidth 9)

/-! ## Frames to instructions -/

/-- The ways a present frame can be malformed (R66): each is answered `ProtocolViolation`. -/
inductive FrameError where
  /-- Fewer than 2 bytes (R66(a), R100). -/
  | shortFrame
  /-- A READ or WRITE frame under 4 bytes (R66(b), R66(c), R101). -/
  | noLengthField
  /-- A WRITE frame under `4 + L` bytes (R66(d), R101; the spec's decision D6, log entry 11). -/
  | shortPayload
  deriving DecidableEq, Repr

/-- What the decoder answers: the command of the frame, or the check that failed. -/
inductive Decoded where
  | instr (i : Instr)
  | reject (e : FrameError)
  deriving DecidableEq, Repr

/-- A READ frame past its word: the length field, then bytes that are ignored (R101, R67). -/
def decodeRead (a : Addr) (rest : List Byte) : Decoded :=
  match rest with
  | lenLow :: lenHigh :: _ => .instr (.read a (le16 lenLow lenHigh))
  | _ => .reject .noLengthField

/-- A WRITE frame past its word: the length field `L`, `L` payload bytes, then bytes that are
ignored (R101, R64, R67). -/
def decodeWrite (a : Addr) (rest : List Byte) : Decoded :=
  match rest with
  | lenLow :: lenHigh :: bytes =>
    if bytes.length < (le16 lenLow lenHigh).toNat then .reject .shortPayload
    else .instr (.write a (bytes.take (le16 lenLow lenHigh).toNat))
  | _ => .reject .noLengthField

/-- The selection of R101, by the opcode alone; `rest` is the frame past its word. The last arm is
opcode `0b111`, the only value left. -/
def decodeCommand (op : Opcode) (a : Addr) (rest : List Byte) : Decoded :=
  if op = opREAD then decodeRead a rest
  else if op = opWRITE then decodeWrite a rest
  else if op = opWREN then .instr (.wren a)
  else if op = opWRDI then .instr (.wrdi a)
  else if op = opRDSR then .instr (.rdsr a)
  else if op = opWRSR then .instr (.wrsr a)
  else if op = opUnassigned000 then .instr (.unassigned000 a)
  else .instr (.unassigned111 a)

/-- The whole decoder, on the bytes of a present frame: the short-frame check of R100, DECODE of the
little-endian word in bytes 0 and 1, then the selection and length checks of R101. -/
def decode (f : Frame) : Decoded :=
  match f with
  | instrLow :: instrHigh :: rest =>
    decodeCommand (decodeWord (le16 instrLow instrHigh)).1 (decodeWord (le16 instrLow instrHigh)).2 rest
  | _ => .reject .shortFrame

/-! ## Instructions to frames -/

/-- The row's opcode (R63). -/
def Instr.opcode : Instr → Opcode
  | .read _ _ => opREAD
  | .write _ _ => opWRITE
  | .wren _ => opWREN
  | .wrdi _ => opWRDI
  | .rdsr _ => opRDSR
  | .wrsr _ => opWRSR
  | .unassigned000 _ => opUnassigned000
  | .unassigned111 _ => opUnassigned111

/-- The address field of the word (R60). -/
def Instr.addr : Instr → Addr
  | .read a _ => a
  | .write a _ => a
  | .wren a => a
  | .wrdi a => a
  | .rdsr a => a
  | .wrsr a => a
  | .unassigned000 a => a
  | .unassigned111 a => a

/-- Frame bytes 0 and 1: the word, low byte first (R84, R61). -/
def header (op : Opcode) (a : Addr) : Frame :=
  [loByte (encodeWord op a), hiByte (encodeWord op a)]

/-- Frame bytes 2 and 3: the length, low byte first (R84, R65). -/
def lengthField (len : Len) : Frame := [loByte len, hiByte len]

/-- The shortest frame that carries the instruction: format H is the word, HL adds the length
field, HLP the length field and the payload (R64, R84). -/
def encode : Instr → Frame
  | .read a len => header opREAD a ++ lengthField len
  | .write a payload => header opWRITE a ++ lengthField (BitVec.ofNat 16 payload.length) ++ payload
  | .wren a => header opWREN a
  | .wrdi a => header opWRDI a
  | .rdsr a => header opRDSR a
  | .wrsr a => header opWRSR a
  | .unassigned000 a => header opUnassigned000 a
  | .unassigned111 a => header opUnassigned111 a

/-! ## Words as spec/opcode_table.json numbers them -/

/-- The low `n` bytes of `w`, least significant first: byte `k` is bits `8k+7..8k`. -/
def bytesOfNat : Nat → Nat → List Byte
  | 0, _ => []
  | n + 1, w => BitVec.ofNat 8 w :: bytesOfNat n (w / 256)

/-- The bytes of the first `nbits` bits of `w`, in the order the transport carries them. -/
def tableBytes (nbits w : Nat) : List Byte := bytesOfNat ((nbits + 7) / 8) (w % 2 ^ nbits)

/-- The frame whose first `nbits` bits are those of `w` and whose later bits are all zero, long enough
for the length field and for the payload that the length field (frame bytes 2 and 3) asks for. -/
def tableFrame (nbits w : Nat) : Frame :=
  tableBytes nbits w ++
    List.replicate (4 + (le16 ((tableBytes nbits w).getD 2 0) ((tableBytes nbits w).getD 3 0)).toNat) 0

/-- The instruction the decoder reads from a word of the opcode table, later bits zero. -/
def decodeTableWord (nbits w : Nat) : Option Instr :=
  match decode (tableFrame nbits w) with
  | .instr i => some i
  | .reject _ => none

end Sys2Proof
end

