-- ==== Sys2Proof/Machine/State.lean ====
section
/-! DEFINITION. The state of the block (spec/10_state.md rules R20 to R25 and R33), the state of its
host driver (R32), and the two ends of the interface between them: the calls the host has still to
make and the answer of the last one. All of it is plain data. -/

namespace Sys2Proof.Machine

/-! ## Memory -/

/-- The backing memory (R23, R40): the bytes written since construction, as (address, byte) pairs with
addresses strictly rising, all below 512. An address without a pair still holds the byte
`INIT_MEMORY` gave it (R182, `Config.initMemory`; log entries 3 and 4). -/
abbrev Memory := List Host.Cell

/-! ## Errors and answers -/

/-- The six error kinds of the taxonomy (R160). -/
inductive ErrorKind where
  /-- "null pointer/zero length where required": raised by the driver. -/
  | invalidArgument
  /-- "address > 511": raised by the driver. -/
  | addressOutOfRange
  /-- "operation attempted while soft-switch is off": raised by the driver. -/
  | deviceStopped
  /-- "transfer attempted while select line in the wrong state": raised by `transfer`. -/
  | transportNotReady
  /-- "malformed or unrecognized frame": raised by `transfer`. -/
  | protocolViolation
  /-- An operation granularity the transport declines; the block never raises it (R162). -/
  | notImplemented
  deriving DecidableEq, Repr

/-- The "recorded info" of R160: which check failed. Diagnostic only: no call returns it, no field holds it
and nothing outside the block can observe it (R15, R166; log entry 23). -/
inductive ErrorInfo where
  | selectDeasserted
  | nullFrame
  | shortFrame
  | noLengthField
  | shortPayload
  | unsupportedOpcode
  | unknownOpcode
  deriving DecidableEq, Repr

/-- The `v` of an `ok(v)` (R15): what each call and each driver operation returns. -/
inductive Value where
  /-- A byte sequence: `transfer`, the select calls (always `[]`) and readByteArray. -/
  | bytes (bs : List Byte)
  /-- One byte: debugRead and readByte. -/
  | byte (b : Byte)
  /-- One bit: readBit. -/
  | bit (b : BitVec 1)
  /-- The instruction word of ENCODE. -/
  | word (w : Word)
  /-- The opcode and address of DECODE. -/
  | fields (op : Opcode) (a : Addr)
  /-- `ok()`: debugWrite and the driver's writes, stop and resume. -/
  | unit
  deriving DecidableEq, Repr

/-- What a call returns: `ok(v)` or `err(K)`, and nothing more (R15, R160). -/
inductive Answer where
  | ok (v : Value)
  | err (k : ErrorKind)
  deriving DecidableEq, Repr

/-! ## What the host asks for -/

/-- One call on the block's interface: the three transport calls (R30), the two codec functions
(R80, R81) and the two debug-port calls (R175). Each is one atomic step (R8). -/
inductive Call where
  | assertSelect
  | deassertSelect
  /-- `none` is the document's null frame (R13, R100). -/
  | transfer (frame : Option Frame)
  | encode (op : Opcode) (a : Addr)
  | decode (w : Word)
  | debugRead (a : Addr)
  | debugWrite (a : Addr) (v : Byte)
  deriving DecidableEq, Repr

/-- One operation of the host driver (spec/45_host_sequences.md). Its address is any number, since the
driver itself checks the range (R131); `none` is null data (R139). -/
inductive DriverOp where
  | readBit (address : Nat)
  | readByte (address : Nat)
  | readByteArray (address : Nat) (length : Len)
  | writeBit (address : Nat) (value : BitVec 1)
  | writeByte (address : Nat) (value : Byte)
  | writeByteArray (address : Nat) (data : Option (List Byte)) (length : Len)
  | stop
  | resume
  deriving DecidableEq, Repr

/-- One thing the host does next: a call of its own, or a driver operation. -/
inductive Request where
  | call (c : Call)
  | driver (op : DriverOp)
  deriving DecidableEq, Repr

/-! ## The host driver -/

/-- Where the driver is in the pulse it makes: "one assert-select/transfer/deassert-select cycle"
(R130). -/
inductive Phase where
  /-- The next call is `assertSelect`. -/
  | select
  /-- The next call is `transfer`. -/
  | transfer
  /-- The next call is `deassertSelect`. -/
  | release
  deriving DecidableEq, Repr

/-- What the driver does with the response of a READ pulse. -/
inductive ReadUse where
  /-- readBit returns bit 7 of its first byte (R134). -/
  | bit
  /-- readByte returns its first byte (R135). -/
  | byte
  /-- readByteArray returns all of it (R136). -/
  | array
  /-- writeBit merges `v` into bit 7 of its first byte and writes that (R137). -/
  | modify (v : BitVec 1)
  deriving DecidableEq, Repr

/-- Which pulse of its sequence the driver makes (R134 to R139). -/
inductive Stage where
  | read (use : ReadUse)
  /-- The WREN pulse; `data` is what the WRITE pulse after it carries. -/
  | wren (data : List Byte)
  | write (data : List Byte)
  | wrdi
  deriving DecidableEq, Repr

/-- A driver operation under way: its address and length, and where it is in its sequence. -/
structure Job where
  addr : Addr
  length : Len
  stage : Stage
  phase : Phase
  deriving DecidableEq, Repr

/-- The host driver: the soft-switch `isWorking` (R32), and the model's own two fields, the operation
under way and the result of the last one (log entries 19 and 30). -/
structure Driver where
  isWorking : Bool
  job : Option Job
  result : Option Answer
  deriving DecidableEq, Repr

/-! ## The whole state -/

/-- The block's state vector `(sel, wi, we, mem)` (R33), the interface (`answer`, `requests`: the
model's own, log entries 1 and 2) and the host driver (R32). -/
structure State where
  /-- The select-line level; `true` is asserted (R20). -/
  sel : Bool
  /-- The `writeInitiated` latch: WREN seen, awaiting a select assertion (R22). -/
  wi : Bool
  /-- The `writeEnabled` latch: write permitted (R21). -/
  we : Bool
  /-- The 512-byte memory (R23). -/
  mem : Memory
  /-- What the last interface call returned; `none` before the first. -/
  answer : Option Answer
  /-- What the host does next, the next one first. -/
  requests : List Request
  /-- The host driver. -/
  driver : Driver
  deriving DecidableEq, Repr

/-- Where the machine stops. No command and no interface call stops it: an error of the block is an
answer, not a stop (R164, R165). -/
inductive Fault where
  /-- Raised by the driver's pulse when the response it must index (`r[0]`) or return holds no byte
  sequence, or an empty one. Safe: no such response can come from the block (R141, log entry 22). -/
  | noTransferResponse
  deriving DecidableEq, Repr

/-- What the model gives no meaning to. -/
inductive Refusal where
  /-- Raised by an arm of `exec` whose instruction has no meaning yet: no arm is one. Safe. -/
  | notModelled (mnemonic : String)
  /-- Raised by writeByteArray called with fewer data bytes than its length: "a model refuses a call
  that breaks it" (R139, D21). Safe (log entry 20). -/
  | dataShorterThanLength
  deriving DecidableEq, Repr

/-- The three outcomes of a step of this machine. -/
abbrev Result := Host.Outcome State Fault Refusal

/-- The state at construction, the block's only reset (R184): select deasserted (R180), both latches
clear (R181), no byte written over `INIT_MEMORY` (R182), the driver working (R183). The model's own
fields are empty: no call made, none asked for, no operation under way. -/
def State.reset : State where
  sel := false
  wi := false
  we := false
  mem := []
  answer := none
  requests := []
  driver := { isWorking := true, job := none, result := none }

end Sys2Proof.Machine
end

