-- ==== Sys2Proof/Machine/Ops.lean ====
section
/-! DEFINITION. The named operations every meaning is written over: one-byte memory accesses, field
updates, and the two ways a call ends, `ok(v)` and `err(K)` (spec/00_scope.md R15,
spec/60_exceptions.md R164 to R166). -/

namespace Sys2Proof.Machine

/-! ## One byte of memory (R14, R45) -/

/-- The byte written at address `n`, if one was. -/
def Memory.find (m : Memory) (n : Nat) : Option Byte :=
  match m with
  | [] => none
  | c :: cs => if c.1 = n then some c.2 else Memory.find cs n

/-- What an address that nothing has written reads as: `INIT_MEMORY(a)` (R54, R182). -/
def Memory.unlisted (a : Addr) : Byte := Config.initMemory a

/-- `MemRead(a, 1) = mem[a]` (R14). -/
def Memory.read (m : Memory) (a : Addr) : Byte :=
  match Memory.find m a.toNat with
  | some v => v
  | none => Memory.unlisted a

/-- Put the pair `(n, v)` in its place in the rising list, over any pair at `n`. -/
def Memory.insert (m : Memory) (n : Nat) (v : Byte) : Memory :=
  match m with
  | [] => [(n, v)]
  | c :: cs =>
    if n < c.1 then (n, v) :: c :: cs
    else if n = c.1 then (n, v) :: cs
    else c :: Memory.insert cs n v

/-- `MemWrite(a, 1, v)`: `mem[a] <- v` (R14). -/
def Memory.write (m : Memory) (a : Addr) (v : Byte) : Memory := Memory.insert m a.toNat v

/-- The canonical form of the list: addresses strictly rising and all of them in 0 to 511 (R40, log
entry 4). -/
abbrev Memory.wf (m : Memory) : Prop :=
  m.Pairwise (fun c d => c.1 < d.1) ∧ ∀ c ∈ m, c.1 < Config.memSize

/-! ## Field updates -/

def State.withSel (s : State) (b : Bool) : State := { s with sel := b }
def State.withWi (s : State) (b : Bool) : State := { s with wi := b }
def State.withWe (s : State) (b : Bool) : State := { s with we := b }
def State.withMem (s : State) (m : Memory) : State := { s with mem := m }
def State.withAnswer (s : State) (r : Answer) : State := { s with answer := some r }
def State.withRequests (s : State) (rs : List Request) : State := { s with requests := rs }
def State.withDriver (s : State) (d : Driver) : State := { s with driver := d }

/-! ## How a call ends -/

/-- The call returns `ok(v)` (R15). -/
def reply (v : Value) (s : State) : Result := .next (s.withAnswer (.ok v))

/-- The kind each failed check is reported as: the two rows of R160's table that the block raises. -/
def ErrorInfo.kind : ErrorInfo → ErrorKind
  | .selectDeasserted => .transportNotReady
  | .nullFrame => .protocolViolation
  | .shortFrame => .protocolViolation
  | .noLengthField => .protocolViolation
  | .shortPayload => .protocolViolation
  | .unsupportedOpcode => .protocolViolation
  | .unknownOpcode => .protocolViolation

/-- `raise K(info)`: the call returns `err(K)`, `K` being the kind of the failed check; the info goes no
further (R15). Nothing else happens: there is no vector, no saved state and no mode to change, and nothing
to return from (R164, R165, R166). -/
def raise (info : ErrorInfo) (s : State) : Result := .next (s.withAnswer (.err info.kind))

/-- Go on from the next state; a stop stays a stop. -/
def andThen (r : Result) (f : State → Result) : Result :=
  match r with
  | .next s => f s
  | .fault x => .fault x
  | .refused x => .refused x

/-- The numeric code of a kind, in taxonomy order (R160; the spec's decision D13, log entry 23). -/
def ErrorKind.code : ErrorKind → Nat
  | .invalidArgument => 1
  | .addressOutOfRange => 2
  | .deviceStopped => 3
  | .transportNotReady => 4
  | .protocolViolation => 5
  | .notImplemented => 6

end Sys2Proof.Machine
end

