-- ==== Sys2Proof/Machine/Flags.lean ====
section
/-! DEFINITION. The two latch bits, the block's only flags, and everything that changes them
(spec/41_select.md R90 to R97, spec/10_state.md R21 and R22). -/

namespace Sys2Proof.Machine

/-- The latch controller's four states of the pair `(wi, we)` (R93). -/
inductive LatchState where
  /-- `(false, false)`. -/
  | idle
  /-- `(true, false)`: a WREN seen and not yet promoted. -/
  | pending
  /-- `(false, true)`. -/
  | enabled
  /-- `(true, true)`: enabled, with a later WREN pending. -/
  | enabledP
  deriving DecidableEq, Repr

/-- The latch state of the pair `(wi, we)` (R93). -/
def State.latch (s : State) : LatchState :=
  match s.wi, s.we with
  | false, false => .idle
  | true, false => .pending
  | false, true => .enabled
  | true, true => .enabledP

/-- Promotion: a pending `writeInitiated` moves into `writeEnabled` (R90; clearing `wi` is the spec's
decision D8, log entry 13). -/
def promote (s : State) : State := if s.wi then (s.withWe true).withWi false else s

/-- WREN arms: `wi <- true` (R105). -/
def arm (s : State) : State := s.withWi true

/-- WRDI disarms: `wi <- false`, `we <- false` (R106). -/
def disarm (s : State) : State := (s.withWi false).withWe false

/-- A rejected WRITE drops a pending WREN: `wi <- false` (R103). -/
def dropPending (s : State) : State := s.withWi false

end Sys2Proof.Machine
end

