-- ==== Sys2Proof/Machine/Operands.lean ====
section
/-! DEFINITION. The block's only operand form: a run of bytes at consecutive addresses that wraps
modulo 512 (spec/20_memory.md R42, R45 to R47; spec/42_commands.md R112). -/

namespace Sys2Proof.Machine

/-- The transient address counter: `(a + k) mod 512` (R29, R42, R112(a)). -/
def wrapAddr (a : Addr) (k : Nat) : Addr := BitVec.ofNat 9 ((a.toNat + k) % Config.memSize)

/-- `[ mem[(a + k) mod 512] for k in 0..n-1 ]`: bytes in ascending wrapped address order (R47, R102). -/
def readRun (m : Memory) (a : Addr) (n : Nat) : List Byte :=
  (List.range n).map fun k => m.read (wrapAddr a k)

/-- `for k in k0..: mem[(a + k) mod 512] <- byte k`, in increasing `k`, so that a later byte to the same
address wins (R103, R104, R51). -/
def writeFrom (m : Memory) (a : Addr) (k : Nat) : List Byte → Memory
  | [] => m
  | b :: bs => writeFrom (m.write (wrapAddr a k) b) a (k + 1) bs

/-- A whole payload, from `k = 0` (R104). -/
def writeRun (m : Memory) (a : Addr) (payload : List Byte) : Memory := writeFrom m a 0 payload

end Sys2Proof.Machine
end

