-- ==== Sys2Proof/Machine/DataCommands.lean ====
section
/-! DEFINITION. The commands that reach memory: READ and WRITE (spec/42_commands.md R102 to R104). -/

namespace Sys2Proof.Machine

/-- READ: return `len` bytes from `a` on, wrapping modulo 512; no state is written and the latches do not
matter (R102). -/
def execRead (a : Addr) (len : Len) (s : State) : Result :=
  reply (.bytes (readRun s.mem a len.toNat)) s

/-- WRITE: while `we` is false nothing is written and a pending WREN is dropped; else the payload is
stored and the latches stay. Both return the empty response (R103, R104). -/
def execWrite (a : Addr) (payload : List Byte) (s : State) : Result :=
  if s.we then reply (.bytes []) (s.withMem (writeRun s.mem a payload))
  else reply (.bytes []) (dropPending s)

end Sys2Proof.Machine
end

