-- ==== Sys2Proof/Machine/ErrorCommands.lean ====
section
/-! DEFINITION. The opcodes the state machine does not dispatch: each is answered
`err(ProtocolViolation)` and changes nothing (spec/42_commands.md R108 to R110). -/

namespace Sys2Proof.Machine

/-- RDSR: the block has no status register to read (R108; the spec's decision D5, log entry 10). -/
def execRdsr (_a : Addr) (s : State) : Result := raise .unsupportedOpcode s

/-- WRSR: named and not dispatched, like RDSR (R109; D5, log entry 10). -/
def execWrsr (_a : Addr) (s : State) : Result := raise .unsupportedOpcode s

/-- The unassigned opcode `0b000` (R110). -/
def execUnassigned000 (_a : Addr) (s : State) : Result := raise .unknownOpcode s

/-- The unassigned opcode `0b111` (R110). -/
def execUnassigned111 (_a : Addr) (s : State) : Result := raise .unknownOpcode s

end Sys2Proof.Machine
end

