-- ==== Sys2Proof/Machine/LatchCommands.lean ====
section
/-! DEFINITION. The commands that set and clear the latches: WREN and WRDI (spec/42_commands.md R105,
R106). Both ignore the decoded address (R71). -/

namespace Sys2Proof.Machine

/-- WREN: `wi <- true`, empty response (R105). -/
def execWren (_a : Addr) (s : State) : Result := reply (.bytes []) (arm s)

/-- WRDI: `wi <- false`, `we <- false`, empty response (R106). -/
def execWrdi (_a : Addr) (s : State) : Result := reply (.bytes []) (disarm s)

end Sys2Proof.Machine
end

