-- ==== Sys2Proof/Machine/Dispatch.lean ====
section
/-! DEFINITION. The dispatch of a decoded command (spec/42_commands.md R101): one arm per constructor. -/

namespace Sys2Proof.Machine

/-- The meaning of a decoded command, in a state where the entry checks of R100 have passed. -/
def exec (i : Instr) (s : State) : Host.Outcome State Fault Refusal :=
  match i with
  | .read a len => Sys2Proof.Machine.execRead a len s
  | .write a payload => Sys2Proof.Machine.execWrite a payload s
  | .wren a => Sys2Proof.Machine.execWren a s
  | .wrdi a => Sys2Proof.Machine.execWrdi a s
  | .rdsr a => Sys2Proof.Machine.execRdsr a s
  | .wrsr a => Sys2Proof.Machine.execWrsr a s
  | .unassigned000 a => Sys2Proof.Machine.execUnassigned000 a s
  | .unassigned111 a => Sys2Proof.Machine.execUnassigned111 a s

end Sys2Proof.Machine
end

