-- ==== Sys2Proof/Machine/Interface.lean ====
section
/-! DEFINITION. The calls on the block's interface, each one atomic step: the select calls
(spec/41_select.md R90, R91), `transfer` with its entry checks (spec/42_commands.md R100), the codec
functions (spec/40_codec.md R80, R81) and the debug port (spec/60_exceptions.md R175). -/

namespace Sys2Proof.Machine

/-- `assertSelect()`: `sel <- true` and promote a pending WREN, also when `sel` was already true
(R90; the repeated assert is the spec's decision D9, log entry 14). -/
def assertSelect (s : State) : Result := reply (.bytes []) (promote (s.withSel true))

/-- `deassertSelect()`: `sel <- false` (R91). -/
def deassertSelect (s : State) : Result := reply (.bytes []) (s.withSel false)

/-- The diagnostic info of a malformed frame (R160). -/
def frameErrorInfo : FrameError → ErrorInfo
  | .shortFrame => .shortFrame
  | .noLengthField => .noLengthField
  | .shortPayload => .shortPayload

/-- `transfer(frame)`: the select check, then the null check, then the frame checks of the decoder, and
only then the command (R100, R101, R163; the order is the spec's decision D4, log entry 9). -/
def transfer (frame : Option Frame) (s : State) : Result :=
  if s.sel then
    match frame with
    | none => raise .nullFrame s
    | some f =>
      match Sys2Proof.decode f with
      | .reject e => raise (frameErrorInfo e) s
      | .instr i => exec i s
  else raise .selectDeasserted s

/-- The check an undispatched command fails; `none` for the four commands that run (R108 to R110). -/
def commandErrorInfo : Instr → Option ErrorInfo
  | .read _ _ => none
  | .write _ _ => none
  | .wren _ => none
  | .wrdi _ => none
  | .rdsr _ => some .unsupportedOpcode
  | .wrsr _ => some .unsupportedOpcode
  | .unassigned000 _ => some .unknownOpcode
  | .unassigned111 _ => some .unknownOpcode

/-- The first check that `transfer(frame)` fails, in the order of R163, and `none` if it fails none: R160's
"recorded info". It is for reasoning about the block only. No call returns it and no step reads it (R15,
log entry 23). -/
def failedCheck (frame : Option Frame) (s : State) : Option ErrorInfo :=
  if s.sel then
    match frame with
    | none => some .nullFrame
    | some f =>
      match Sys2Proof.decode f with
      | .reject e => some (frameErrorInfo e)
      | .instr i => commandErrorInfo i
  else some .selectDeasserted

/-- `debugRead(a)`: return `mem[a]`; nothing else matters or changes (R175, D15). -/
def debugRead (a : Addr) (s : State) : Result := reply (.byte (s.mem.read a)) s

/-- `debugWrite(a, v)`: `mem[a] <- v`, past the latches (R175, D15). -/
def debugWrite (a : Addr) (v : Byte) (s : State) : Result := reply .unit (s.withMem (s.mem.write a v))

/-- ENCODE as a call: pure, no state (R80). -/
def encodeCall (op : Opcode) (a : Addr) (s : State) : Result := reply (.word (encodeWord op a)) s

/-- DECODE as a call: pure, no state (R81). -/
def decodeCall (w : Word) (s : State) : Result :=
  reply (.fields (decodeWord w).1 (decodeWord w).2) s

/-- One interface call (R8). -/
def runCall (c : Call) (s : State) : Result :=
  match c with
  | .assertSelect => assertSelect s
  | .deassertSelect => deassertSelect s
  | .transfer frame => transfer frame s
  | .encode op a => encodeCall op a s
  | .decode w => decodeCall w s
  | .debugRead a => debugRead a s
  | .debugWrite a v => debugWrite a v s

end Sys2Proof.Machine
end

