-- ==== Sys2Proof/Machine/HostDriver.lean ====
section
/-! DEFINITION. The host driver of spec/45_host_sequences.md: a host program that calls the block, one
interface call a step. It binds a host that claims to be that driver, not the block (R6). -/

namespace Sys2Proof.Machine

/-! ## The frames it builds (R132; 4-byte WREN and WRDI frames are the spec's decision D18) -/

def readFrame (a : Addr) (len : Len) : Frame := header opREAD a ++ lengthField len
def writeFrame (a : Addr) (len : Len) (data : List Byte) : Frame :=
  header opWRITE a ++ lengthField len ++ data
def wrenFrame : Frame := header opWREN 0 ++ lengthField 0
def wrdiFrame : Frame := header opWRDI 0 ++ lengthField 0

/-- The frame of the job's current pulse (R134 to R139). -/
def Job.frame (j : Job) : Frame :=
  match j.stage with
  | .read _ => readFrame j.addr j.length
  | .wren _ => wrenFrame
  | .write data => writeFrame j.addr j.length data
  | .wrdi => wrdiFrame

/-! ## Bit 7 of a byte (R48, R134, R137) -/

/-- `b[7]`. -/
def topBit (b : Byte) : BitVec 1 := b.extractLsb' 7 1

/-- `(v << 7) | (b & 0x7F)`. -/
def mergeTopBit (v : BitVec 1) (b : Byte) : Byte := (v.setWidth 8 <<< 7) ||| (b &&& 0x7F#8)

/-! ## Where an operation starts, goes on and ends -/

/-- The driver goes on with the job. -/
def withJob (j : Job) (s : State) : State := s.withDriver { s.driver with job := some j }

/-- The operation returns `r`; the driver has no operation under way. -/
def finishOp (r : Answer) (s : State) : State :=
  s.withDriver { s.driver with job := none, result := some r }

/-- The operation's first pulse is `stage`; no transport call is made yet. -/
def startJob (a : Addr) (len : Len) (stage : Stage) (s : State) : Result :=
  .next (s.withDriver { s.driver with job := some ⟨a, len, stage, .select⟩, result := none })

/-- The operation fails before any transport call (R131). -/
def failOp (k : ErrorKind) (s : State) : Result := .next (finishOp (.err k) s)

/-- `validate(a)`: the address, then the soft-switch, then the operation's own checks (R131; the order is
the spec's decision D19, log entry 17). -/
def validated (address : Nat) (s : State) (k : Addr → Result) : Result :=
  if Config.maxAddress < address then failOp .addressOutOfRange s
  else if s.driver.isWorking then k (BitVec.ofNat 9 address)
  else failOp .deviceStopped s

/-- writeByteArray past `validate`: zero length or null data is InvalidArgument, and data shorter than
the length is refused, being outside the operation's precondition (R139, D21, log entry 20). -/
def startWriteArray (a : Addr) (data : Option (List Byte)) (len : Len) (s : State) : Result :=
  match data with
  | none => failOp .invalidArgument s
  | some bytes =>
    if len = 0 then failOp .invalidArgument s
    else if bytes.length < len.toNat then .refused .dataShorterThanLength
    else startJob a len (.wren (bytes.take len.toNat)) s

/-- A driver operation begins: its checks, and then its first pulse is due (R134 to R140). -/
def startOp (op : DriverOp) (s : State) : Result :=
  match op with
  | .readBit address => validated address s fun a => startJob a 1 (.read .bit) s
  | .readByte address => validated address s fun a => startJob a 1 (.read .byte) s
  | .readByteArray address len =>
    validated address s fun a =>
      if len = 0 then failOp .invalidArgument s else startJob a len (.read .array) s
  | .writeBit address v => validated address s fun a => startJob a 1 (.read (.modify v)) s
  | .writeByte address v => validated address s fun a => startJob a 1 (.wren [v]) s
  | .writeByteArray address data len => validated address s fun a => startWriteArray a data len s
  | .stop => .next (finishOp (.ok .unit) (s.withDriver { s.driver with isWorking := false }))
  | .resume => .next (finishOp (.ok .unit) (s.withDriver { s.driver with isWorking := true }))

/-- The job's next pulse is `stage`. -/
def nextPulse (j : Job) (stage : Stage) (s : State) : Result :=
  .next (withJob { j with stage := stage, phase := .select } s)

/-- What a READ pulse's response `bs` is used for (R134 to R137). `r[0]` of an empty response has no
meaning; the block never gives one (R141, log entry 22). -/
def useResponse (j : Job) (use : ReadUse) (bs : List Byte) (s : State) : Result :=
  match use, bs with
  | .array, bs => .next (finishOp (.ok (.bytes bs)) s)
  | .bit, b :: _ => .next (finishOp (.ok (.bit (topBit b))) s)
  | .byte, b :: _ => .next (finishOp (.ok (.byte b)) s)
  | .modify v, b :: _ => nextPulse j (.wren [mergeTopBit v b]) s
  | .bit, [] => .fault .noTransferResponse
  | .byte, [] => .fault .noTransferResponse
  | .modify _, [] => .fault .noTransferResponse

/-- The pulse has ended and its transfer returned `ok(v)`: the next pulse, or the operation's result. -/
def pulseOk (j : Job) (v : Value) (s : State) : Result :=
  match j.stage, v with
  | .read use, .bytes bs => useResponse j use bs s
  | .read _, _ => .fault .noTransferResponse
  | .wren data, _ => nextPulse j (.write data) s
  | .write _, _ => nextPulse j .wrdi s
  | .wrdi, _ => .next (finishOp (.ok .unit) s)

/-- The pulse has ended, its transfer having returned `r`: on an error the operation returns it at once
and makes no further pulse (R133). -/
def pulseDone (j : Job) (r : Option Answer) (s : State) : Result :=
  match r with
  | some (.err k) => .next (finishOp (.err k) s)
  | some (.ok v) => pulseOk j v s
  | none => .fault .noTransferResponse

/-- One interface call of the operation under way. The transfer's return value is the interface's last
answer when the pulse ends; the deassert runs whatever it is (R130). -/
def driverStep (j : Job) (s : State) : Result :=
  match j.phase with
  | .select =>
    andThen (runCall .assertSelect s) fun t => .next (withJob { j with phase := .transfer } t)
  | .transfer =>
    andThen (runCall (.transfer (some j.frame)) s) fun t => .next (withJob { j with phase := .release } t)
  | .release => andThen (runCall .deassertSelect s) fun t => pulseDone j s.answer t

/-- What the host does next: the call its operation under way is at, else its next request, else
nothing ("Nothing advances between calls", R27; log entries 1, 7 and 19). -/
def serve (s : State) : Result :=
  match s.driver.job, s.requests with
  | some j, _ => driverStep j s
  | none, [] => .next s
  | none, .call c :: rest => runCall c (s.withRequests rest)
  | none, .driver op :: rest => startOp op (s.withRequests rest)

/-- The state with this frame as the transfer the host makes next: no operation is under way, and the
select line is asserted, without which no transfer's frame is looked at (R100; log entry 27). -/
def placeTransfer (f : Frame) (s : State) : State :=
  ((s.withSel true).withRequests (.call (.transfer (some f)) :: s.requests)).withDriver
    { s.driver with job := none }

end Sys2Proof.Machine
end

