-- ==== Sys2Proof/Machine/Step.lean ====
section
/-! DEFINITION. One step of the machine: one interface call (spec/00_scope.md R8). -/

namespace Sys2Proof.Machine

/-- One step: the host makes its next interface call, or its driver starts an operation. -/
def step (s : State) : Host.Outcome State Fault Refusal := serve s

/-- `s` with the table's word as the frame of the very next transfer (log entry 27). -/
def State.withFetchWord (s : State) (nbits w : Nat) : State := placeTransfer (tableFrame nbits w) s

/-- `n` steps, stopping at the first stop. -/
def steps : Nat → State → Result
  | 0, s => .next s
  | n + 1, s => andThen (step s) (steps n)

end Sys2Proof.Machine
end

