-- ==== Sys2Proof/Safety.lean ====
section
/-! DEFINITION. The terms claims about the machine use: the call a step makes, the latch table of
spec/41_select.md, what two states have in common, and the machine's invariant. -/

namespace Sys2Proof.Machine

/-! ## The call a step makes -/

/-- The interface call a job is at (R130). -/
def Job.call (j : Job) : Call :=
  match j.phase with
  | .select => .assertSelect
  | .transfer => .transfer (some j.frame)
  | .release => .deassertSelect

/-- The interface call the next step makes, if it makes one. -/
def State.nextCall (s : State) : Option Call :=
  match s.driver.job, s.requests with
  | some j, _ => some j.call
  | none, .call c :: _ => some c
  | none, _ => none

/-! ## The latch table (R94) -/

/-- The columns of the table of R94. -/
inductive LatchEvent where
  | sel
  | desel
  | wren
  | wrdi
  | write
  | read
  | error
  | debug
  deriving DecidableEq, Repr

/-- The table of R94, cell by cell: the next latch state. -/
def LatchState.after : LatchState → LatchEvent → LatchState
  | .idle, .sel => .idle
  | .idle, .desel => .idle
  | .idle, .wren => .pending
  | .idle, .wrdi => .idle
  | .idle, .write => .idle
  | .idle, .read => .idle
  | .idle, .error => .idle
  | .idle, .debug => .idle
  | .pending, .sel => .enabled
  | .pending, .desel => .pending
  | .pending, .wren => .pending
  | .pending, .wrdi => .idle
  | .pending, .write => .idle
  | .pending, .read => .pending
  | .pending, .error => .pending
  | .pending, .debug => .pending
  | .enabled, .sel => .enabled
  | .enabled, .desel => .enabled
  | .enabled, .wren => .enabledP
  | .enabled, .wrdi => .idle
  | .enabled, .write => .enabled
  | .enabled, .read => .enabled
  | .enabled, .error => .enabled
  | .enabled, .debug => .enabled
  | .enabledP, .sel => .enabled
  | .enabledP, .desel => .enabledP
  | .enabledP, .wren => .enabledP
  | .enabledP, .wrdi => .idle
  | .enabledP, .write => .enabledP
  | .enabledP, .read => .enabledP
  | .enabledP, .error => .enabledP
  | .enabledP, .debug => .enabledP

/-- The column of the table a decoded command falls under, select being asserted (R94). -/
def commandEvent : Instr → LatchEvent
  | .read _ _ => .read
  | .write _ _ => .write
  | .wren _ => .wren
  | .wrdi _ => .wrdi
  | .rdsr _ => .error
  | .wrsr _ => .error
  | .unassigned000 _ => .error
  | .unassigned111 _ => .error

/-- The column of the table a call falls under; the codec functions are not in the table (R94). -/
def Call.event (c : Call) (s : State) : Option LatchEvent :=
  match c with
  | .assertSelect => some .sel
  | .deassertSelect => some .desel
  | .transfer none => some .error
  | .transfer (some f) =>
    if s.sel then
      match Sys2Proof.decode f with
      | .instr i => some (commandEvent i)
      | .reject _ => some .error
    else some .error
  | .encode _ _ => none
  | .decode _ => none
  | .debugRead _ => some .debug
  | .debugWrite _ _ => some .debug

/-! ## What two states have in common -/

/-- The block's state vector is the same (R33). -/
def SameBlock (s t : State) : Prop :=
  t.sel = s.sel ∧ t.wi = s.wi ∧ t.we = s.we ∧ t.mem = s.mem

/-- The two states agree on all but `wi`, and on `wi` too unless both are enabled: what R93 says no
sequence of calls can tell apart. -/
def EnabledAlike (s t : State) : Prop :=
  t.sel = s.sel ∧ t.we = s.we ∧ t.mem = s.mem ∧ t.answer = s.answer ∧ t.requests = s.requests ∧
    t.driver = s.driver ∧ (s.we = false → t.wi = s.wi)

/-- Two results of a run agree as `EnabledAlike` says, or are the same stop. -/
def AlikeResults : Result → Result → Prop
  | .next s, .next t => EnabledAlike s t
  | .fault x, .fault y => x = y
  | .refused x, .refused y => x = y
  | .next _, .fault _ => False
  | .next _, .refused _ => False
  | .fault _, .next _ => False
  | .fault _, .refused _ => False
  | .refused _, .next _ => False
  | .refused _, .fault _ => False

/-- The byte an instruction stores to address `x` is one of its payload's: the addresses an honoured
WRITE stores to, by the meaning's own address counter (R104). -/
def StoresAt (i : Instr) (x : Addr) : Prop :=
  ∃ a payload, i = .write a payload ∧ ∃ k, k < payload.length ∧ wrapAddr a k = x

/-- The address argument of the operations that `validate` checks: all but stop and resume (R131). -/
def DriverOp.address : DriverOp → Option Nat
  | .readBit n => some n
  | .readByte n => some n
  | .readByteArray n _ => some n
  | .writeBit n _ => some n
  | .writeByte n _ => some n
  | .writeByteArray n _ _ => some n
  | .stop => none
  | .resume => none

/-- A driver operation has returned `r` with its pulses made: nothing is under way, the select line is
deasserted, and the rest of the host is as it was (R130, R142). -/
def OpDone (s t : State) (rest : List Request) (r : Answer) : Prop :=
  t.sel = false ∧ t.requests = rest ∧ t.driver = { s.driver with job := none, result := some r }

/-! ## The invariant -/

/-- The driver's operands fit its sequence: a single-byte operation has length 1, an array read at least
1, and a write's data is as long as its length field says (R134 to R139). -/
def Job.sized (j : Job) : Prop :=
  match j.stage with
  | .read .array => j.length ≠ 0
  | .read .bit => j.length = 1
  | .read .byte => j.length = 1
  | .read (.modify _) => j.length = 1
  | .wren data => data.length = j.length.toNat
  | .write data => data.length = j.length.toNat
  | .wrdi => True

/-- The transfer of the job's pulse has returned what its command returns, and has had its effect on
the latches (R102 to R106, R142). -/
def Job.transferred (j : Job) (s : State) : Prop :=
  match j.stage with
  | .read _ => ∃ bs, s.answer = some (.ok (.bytes bs)) ∧ bs.length = j.length.toNat
  | .wren _ => s.answer = some (.ok (.bytes [])) ∧ s.wi = true
  | .write _ => s.answer = some (.ok (.bytes [])) ∧ s.we = true
  | .wrdi => s.answer = some (.ok (.bytes [])) ∧ s.wi = false ∧ s.we = false

/-- Where the job is in its pulse, the select line and the latches are as its sequence makes them:
a WRITE pulse finds a pending WREN before its assert and an armed latch after it (R130, R142). -/
def Job.inPhase (j : Job) (s : State) : Prop :=
  match j.phase with
  | .select => ∀ data, j.stage = .write data → s.wi = true
  | .transfer => s.sel = true ∧ ∀ data, j.stage = .write data → s.we = true
  | .release => s.sel = true ∧ j.transferred s

/-- The machine's invariant: the memory list is canonical, and an operation under way is where its
sequence says. -/
def Invariant (s : State) : Prop :=
  s.mem.wf ∧ ∀ j, s.driver.job = some j → j.sized ∧ j.inPhase s

end Sys2Proof.Machine
end

