-- ==== Sys2Proof/Certificates/Slice0/Obligations.lean ====
section
/-! DEFINITION. What is claimed of the machine, for the provers. OBLIGATIONS.json says of each one what it
states, which rules of spec/ it comes from, and how hard it is. -/

open Sys2Proof Sys2Proof.Machine

/-! ## The word codec and the frame decoder -/

/-- R82: encode, then decode, gives back the opcode and the address. -/
def Obligations.WordRoundTripsThroughEncodeAndDecode : Prop :=
  ∀ (op : Opcode) (a : Addr), decodeWord (encodeWord op a) = (op, a)

/-- 40_codec.md, decode then encode: bits 15..12 are cleared, and nothing else is lost. -/
def Obligations.ReencodedWordKeepsItsLowTwelveBits : Prop :=
  ∀ w : Word, encodeWord (decodeWord w).1 (decodeWord w).2 = w &&& 0x0FFF#16 ∧
    (encodeWord (decodeWord w).1 (decodeWord w).2 = w ↔ w >>> 12 = 0)

/-- 40_codec.md, the codec's arithmetic: the OR is the sum `op + 8*a`, and it is at most 4095. -/
def Obligations.EncodedWordIsOpcodePlusEightTimesAddress : Prop :=
  ∀ (op : Opcode) (a : Addr),
    (encodeWord op a).toNat = op.toNat + 8 * a.toNat ∧ (encodeWord op a).toNat ≤ 4095

/-- 30_encoding.md, the split of the word over frame bytes 0 and 1. -/
def Obligations.OpcodeAndAddressComeFromTheFirstTwoBytes : Prop :=
  ∀ b0 b1 : Byte, (decodeWord (le16 b0 b1)).1 = (b0 &&& 0x7#8).setWidth 3 ∧
    (decodeWord (le16 b0 b1)).2 = (b0 >>> 3).setWidth 9 ||| ((b1 &&& 0xF#8).setWidth 9 <<< 5)

/-- R69: bits 7..4 of frame byte 1 are decoded as if they were 0, and the encoder writes them 0. -/
def Obligations.ReservedWordBitsAreIgnoredAndEncodedZero : Prop :=
  (∀ (b0 b1 : Byte) (rest : List Byte), decode (b0 :: b1 :: rest) = decode (b0 :: (b1 &&& 0x0F#8) :: rest)) ∧
  (∀ w : Word, decodeWord w = decodeWord (w &&& 0x0FFF#16)) ∧
  (∀ (op : Opcode) (a : Addr), (encodeWord op a) >>> 12 = 0)

/-- R84: the word travels low byte first, `le16` puts it together again, and a frame builder places the
length low byte first at bytes 2 and 3, then the payload. -/
def Obligations.FrameCarriesWordAndLengthLowByteFirst : Prop :=
  (∀ w : Word, (loByte w).toNat = w.toNat % 256 ∧ (hiByte w).toNat = w.toNat / 256 ∧
    le16 (loByte w) (hiByte w) = w) ∧
  (∀ i : Instr, ∃ tail, encode i =
    loByte (encodeWord i.opcode i.addr) :: hiByte (encodeWord i.opcode i.addr) :: tail) ∧
  (∀ (a : Addr) (len : Len), (encode (.read a len)).drop 2 = [loByte len, hiByte len]) ∧
  (∀ (a : Addr) (p : List Byte), (encode (.write a p)).drop 2 =
    loByte (BitVec.ofNat 16 p.length) :: hiByte (BitVec.ofNat 16 p.length) :: p)

/-- 30_encoding.md, R64 with the spec's decision D7: every well-formed instruction comes back from its
frame, whatever bytes follow it. -/
def Obligations.DecodingAnEncodedInstructionGivesItBack : Prop :=
  ∀ (i : Instr) (extra : List Byte), i.wellFormed = true → decode (encode i ++ extra) = .instr i

/-- Frames written out in 30_encoding.md and 95_test_vectors.md, one for each opcode. -/
def Obligations.FramesOfTheSpecDecodeAsWritten : Prop :=
  decode [0x3B, 0x05, 0x01, 0x00] = .instr (.read 0x0A7 1) ∧
  decode [0x82, 0x00, 0x03, 0x00, 0x01, 0x02, 0x03] = .instr (.write 0x010 [0x01, 0x02, 0x03]) ∧
  decode [0xFE, 0x0F] = .instr (.wren 0x1FF) ∧
  decode [0xFC, 0x0F] = .instr (.wrdi 0x1FF) ∧
  decode [0x3D, 0x05] = .instr (.rdsr 0x0A7) ∧
  decode [0xF9, 0x0F] = .instr (.wrsr 0x1FF) ∧
  decode [0x00, 0x00] = .instr (.unassigned000 0x000) ∧
  decode [0xFF, 0xFF] = .instr (.unassigned111 0x1FF)

/-- 30_encoding.md, the length checks (the short-payload check is the spec's decision D6): which frames the
decoder rejects, and under which name. -/
def Obligations.FramesAreRejectedExactlyWhenTooShort : Prop :=
  (∀ f : Frame, decode f = .reject .shortFrame ↔ f.length < 2) ∧
  (∀ (b0 b1 : Byte) (rest : List Byte), decode (b0 :: b1 :: rest) = .reject .noLengthField ↔
    ((decodeWord (le16 b0 b1)).1 = opREAD ∨ (decodeWord (le16 b0 b1)).1 = opWRITE) ∧ rest.length < 2) ∧
  (∀ (b0 b1 l0 l1 : Byte) (p : List Byte), decode (b0 :: b1 :: l0 :: l1 :: p) = .reject .shortPayload ↔
    (decodeWord (le16 b0 b1)).1 = opWRITE ∧ p.length < (le16 l0 l1).toNat)

/-- 42_commands.md, the dispatch: the command and its address are those of DECODE, and what the decoder
gives can be encoded. -/
def Obligations.DecodedInstructionHasTheWordsOpcodeAndAddress : Prop :=
  ∀ (b0 b1 : Byte) (rest : List Byte) (i : Instr), decode (b0 :: b1 :: rest) = .instr i →
    i.wellFormed = true ∧ (i.opcode, i.addr) = decodeWord (le16 b0 b1)

/-! ## The select line and the latches -/

/-- 41_select.md, `assertSelect()`. That promotion clears `wi`, and that a repeated assert promotes too, are
the spec's decisions D8 and D9. -/
def Obligations.AssertSelectPromotesAPendingWren : Prop :=
  ∀ s : State, runCall .assertSelect s =
    .next { s with sel := true, wi := false, we := s.we || s.wi, answer := some (.ok (.bytes [])) }

/-- 41_select.md, `deassertSelect()`, also when select was deasserted already (D9). -/
def Obligations.DeassertSelectClearsOnlyTheSelectLine : Prop :=
  ∀ s : State, runCall .deassertSelect s =
    .next { s with sel := false, answer := some (.ok (.bytes [])) }

/-- 41_select.md, the latch transition table: every call of the table goes to the cell's state, and memory
changes only in the cells that say so and in the debug column. -/
def Obligations.LatchControllerFollowsItsTable : Prop :=
  ∀ (c : Call) (s : State) (e : LatchEvent), c.event s = some e →
    ∃ t, runCall c s = .next t ∧ t.latch = s.latch.after e ∧
      (t.mem ≠ s.mem → (e = .write ∧ (s.latch = .enabled ∨ s.latch = .enabledP)) ∨ e = .debug)

/-- 41_select.md, the full state machine: only the two select calls move the select line, and each moves it
its own way. -/
def Obligations.OnlySelectCallsMoveTheSelectLine : Prop :=
  ∀ s t : State, step s = .next t → t.sel ≠ s.sel →
    (s.nextCall = some .assertSelect ∧ t.sel = true) ∨ (s.nextCall = some .deassertSelect ∧ t.sel = false)

/-- 41_select.md, arming: `we` becomes true only by a promotion inside `assertSelect`. -/
def Obligations.WritesAreEnabledOnlyByAPromotion : Prop :=
  ∀ s t : State, step s = .next t → s.we = false → t.we = true →
    s.nextCall = some .assertSelect ∧ s.wi = true ∧ t.sel = true

/-- 41_select.md, disarming: `we` becomes false only by a WRDI that is accepted. -/
def Obligations.WritesAreDisabledOnlyByWrdi : Prop :=
  ∀ s t : State, step s = .next t → s.we = true → t.we = false →
    s.sel = true ∧ ∃ f a, s.nextCall = some (.transfer (some f)) ∧ decode f = .instr (.wrdi a)

/-- 41_select.md, arming needs a separate select pulse: a WREN and then a WRITE with no assert between them
store nothing, unless `we` was set before, and the WREN is lost. -/
def Obligations.AWrenArmsNoWriteInItsOwnPulse : Prop :=
  ∀ (s : State) (fWren fWrite : Frame) (a b : Addr) (p : List Byte) (rest : List Request),
    s.driver.job = none → s.sel = true → s.we = false →
    s.requests = .call (.transfer (some fWren)) :: .call (.transfer (some fWrite)) :: rest →
    decode fWren = .instr (.wren a) → decode fWrite = .instr (.write b p) →
    steps 1 s = .next (((s.withRequests (.call (.transfer (some fWrite)) :: rest)).withWi true).withAnswer
      (.ok (.bytes []))) ∧
    steps 2 s = .next (((s.withRequests rest).withWi false).withAnswer (.ok (.bytes [])))

/-- 10_state.md, the writers of `wi` (that a promotion is one of them is the spec's decision D8). -/
def Obligations.WriteInitiatedHasFourWriters : Prop :=
  ∀ s t : State, step s = .next t → t.wi ≠ s.wi →
    (t.wi = false ∧ t.we = true ∧ s.nextCall = some .assertSelect) ∨
    (s.sel = true ∧ ∃ f i, s.nextCall = some (.transfer (some f)) ∧ decode f = .instr i ∧
      ((t.wi = true ∧ ∃ a, i = .wren a) ∨ (t.wi = false ∧ ∃ a, i = .wrdi a) ∨
        (t.wi = false ∧ s.we = false ∧ ∃ a p, i = .write a p)))

/-- 41_select.md, the observable latch states: no sequence of calls tells ENABLED from ENABLED_P. Whatever the
host asks for, any number of steps gives the same answers, memory and driver results from both. -/
def Obligations.EnabledStatesCannotBeToldApart : Prop :=
  ∀ (n : Nat) (s t : State), EnabledAlike s t → AlikeResults (steps n s) (steps n t)

/-! ## transfer, and what a step does -/

/-- Every interface call returns `ok(v)` or `err(K)` in one step, and touches nothing of the host. -/
def Obligations.EveryInterfaceCallAnswers : Prop :=
  ∀ (c : Call) (s : State), ∃ t r, runCall c s = .next t ∧ t.answer = some r ∧
    t.requests = s.requests ∧ t.driver = s.driver

/-- With no operation under way, a step makes the host's next call; with nothing asked for, it changes
nothing. -/
def Obligations.StepMakesTheNextCall : Prop :=
  (∀ (s : State) (c : Call) (rest : List Request), s.driver.job = none → s.requests = .call c :: rest →
    step s = runCall c (s.withRequests rest)) ∧
  (∀ s : State, s.driver.job = none → s.requests = [] → step s = .next s)

/-- A step whose next call is a transfer, select being asserted, of a frame that decodes to `i`, is `exec i`
with the request taken off. -/
def Obligations.StepRunsTheDecodedInstruction : Prop :=
  ∀ (s : State) (f : Frame) (rest : List Request) (i : Instr), s.driver.job = none →
    s.requests = .call (.transfer (some f)) :: rest → s.sel = true → decode f = .instr i →
    step s = exec i (s.withRequests rest)

/-- 42_commands.md, the entry checks and the dispatch, and 60_exceptions.md, their priority: the kind each
failure answers, and the check the "recorded info" names. The order of the checks, the kind of the select
check and the short-payload check are the spec's decisions D4, D3 and D6. -/
def Obligations.TransferChecksRunInOrder : Prop :=
  ∀ s : State,
    (s.sel = false → ∀ frame, runCall (.transfer frame) s = .next (s.withAnswer (.err .transportNotReady)) ∧
      failedCheck frame s = some .selectDeasserted) ∧
    (s.sel = true →
      (runCall (.transfer none) s = .next (s.withAnswer (.err .protocolViolation)) ∧
        failedCheck none s = some .nullFrame) ∧
      (∀ f : Frame, f.length < 2 → runCall (.transfer (some f)) s =
        .next (s.withAnswer (.err .protocolViolation)) ∧ failedCheck (some f) s = some .shortFrame) ∧
      (∀ (b0 b1 : Byte) (rest : List Byte),
        ((decodeWord (le16 b0 b1)).1 = opREAD ∨ (decodeWord (le16 b0 b1)).1 = opWRITE) → rest.length < 2 →
        runCall (.transfer (some (b0 :: b1 :: rest))) s = .next (s.withAnswer (.err .protocolViolation)) ∧
          failedCheck (some (b0 :: b1 :: rest)) s = some .noLengthField) ∧
      (∀ (b0 b1 l0 l1 : Byte) (p : List Byte), (decodeWord (le16 b0 b1)).1 = opWRITE →
        p.length < (le16 l0 l1).toNat → runCall (.transfer (some (b0 :: b1 :: l0 :: l1 :: p))) s =
          .next (s.withAnswer (.err .protocolViolation)) ∧
          failedCheck (some (b0 :: b1 :: l0 :: l1 :: p)) s = some .shortPayload))

/-- 60_exceptions.md: a call answered `err` leaves everything as it was but the answer (the spec's decision
D10). -/
def Obligations.AnErrorChangesNoState : Prop :=
  ∀ (c : Call) (s t : State) (k : ErrorKind),
    runCall c s = .next t → t.answer = some (.err k) → t = s.withAnswer (.err k)

/-- 60_exceptions.md: the block raises two kinds only, from `transfer` only; which of the two is settled by
the select line (the spec's decisions D3 and D4). -/
def Obligations.OnlyTransferRaisesAndOnlyTwoKinds : Prop :=
  ∀ (c : Call) (s t : State) (k : ErrorKind),
    runCall c s = .next t → t.answer = some (.err k) →
    ∃ frame, c = .transfer frame ∧
      ((k = .transportNotReady ∧ s.sel = false) ∨ (k = .protocolViolation ∧ s.sel = true))

/-! ## The commands -/

/-- R102: READ returns the bytes from `a` on, wrapping modulo 512, and writes no state; too short a frame or
a deasserted select line is an error. Bytes past byte 3 are ignored. -/
def Obligations.ReadReturnsWrappedBytesAndWritesNoState : Prop :=
  (∀ (a : Addr) (len : Len) (s : State), ∃ bs,
    exec (.read a len) s = .next (s.withAnswer (.ok (.bytes bs))) ∧ bs.length = len.toNat ∧
    (∀ k, k < len.toNat → bs[k]? = some (s.mem.read (BitVec.ofNat 9 ((a.toNat + k) % 512)))) ∧
    (∀ k, k + 512 < len.toNat → bs[k]? = bs[k + 512]?)) ∧
  (∀ (s : State) (b0 b1 : Byte) (rest : List Byte), (decodeWord (le16 b0 b1)).1 = opREAD →
    (s.sel = false → runCall (.transfer (some (b0 :: b1 :: rest))) s =
      .next (s.withAnswer (.err .transportNotReady)) ∧
      failedCheck (some (b0 :: b1 :: rest)) s = some .selectDeasserted) ∧
    (s.sel = true → rest.length < 2 → runCall (.transfer (some (b0 :: b1 :: rest))) s =
      .next (s.withAnswer (.err .protocolViolation)) ∧
      failedCheck (some (b0 :: b1 :: rest)) s = some .noLengthField) ∧
    (s.sel = true → ∀ l0 l1 extra, rest = l0 :: l1 :: extra →
      runCall (.transfer (some (b0 :: b1 :: rest))) s =
        exec (.read (decodeWord (le16 b0 b1)).2 (le16 l0 l1)) s))

/-- R104: an honoured WRITE applies its payload bytes in increasing `k`, byte `k` to `(a + k) mod 512`, so
that a later byte to the same address wins; nothing else changes but the answer. -/
def Obligations.HonouredWriteStoresThePayloadInOrder : Prop :=
  (∀ (a : Addr) (k : Nat), (wrapAddr a k).toNat = (a.toNat + k) % 512) ∧
  (∀ (a : Addr) (p : List Byte) (s : State), s.we = true →
    ∃ t, exec (.write a p) s = .next t ∧ t = (s.withMem t.mem).withAnswer (.ok (.bytes [])) ∧
      (∀ x, (∀ k, k < p.length → wrapAddr a k ≠ x) → t.mem.read x = s.mem.read x) ∧
      (∀ k b, p[k]? = some b → (∀ j, k < j → j < p.length → wrapAddr a j ≠ wrapAddr a k) →
        t.mem.read (wrapAddr a k) = b))

/-- 42_commands.md, WRITE with `we` false: an `ok([])` that stores nothing and drops a pending WREN. -/
def Obligations.RejectedWriteOnlyDropsAPendingWren : Prop :=
  ∀ (a : Addr) (p : List Byte) (s : State), s.we = false →
    exec (.write a p) s = .next { s with wi := false, answer := some (.ok (.bytes [])) }

/-- 20_memory.md, a WRITE longer than 512 bytes: address `(a + j) mod 512` holds the payload byte with the
largest `k` that `k mod 512 = j`. -/
def Obligations.LongWriteKeepsTheLastByteOfEachAddress : Prop :=
  ∀ (a : Addr) (p : List Byte) (s : State), s.we = true → 512 < p.length →
    ∃ t, exec (.write a p) s = .next t ∧ ∀ j, j < 512 → ∃ k b, k % 512 = j ∧ p[k]? = some b ∧
      p.length ≤ k + 512 ∧ t.mem.read (BitVec.ofNat 9 ((a.toNat + j) % 512)) = b

/-- 20_memory.md, side effects of writes: an honoured WRITE done twice leaves the state that doing it once
leaves. -/
def Obligations.RepeatingAnHonouredWriteChangesNothing : Prop :=
  ∀ (a : Addr) (p : List Byte) (s : State), s.mem.wf → s.we = true →
    ∃ t, exec (.write a p) s = .next t ∧ exec (.write a p) t = .next t

/-- 20_memory.md, the consistency model: a READ of what an honoured WRITE has just written returns the
payload. -/
def Obligations.ReadAfterWriteReturnsThePayload : Prop :=
  ∀ (a : Addr) (p : List Byte) (s : State), s.we = true → p.length ≤ 512 →
    ∃ t, exec (.write a p) s = .next t ∧
      exec (.read a (BitVec.ofNat 16 p.length)) t = .next (t.withAnswer (.ok (.bytes p)))

/-- R105: WREN sets `wi` and nothing else, whatever its address and whatever bytes follow its word. -/
def Obligations.WrenSetsWriteInitiated : Prop :=
  (∀ (a : Addr) (s : State), exec (.wren a) s = .next { s with wi := true, answer := some (.ok (.bytes [])) }) ∧
  (∀ (s : State) (b0 b1 : Byte) (rest : List Byte), s.sel = true → (decodeWord (le16 b0 b1)).1 = opWREN →
    runCall (.transfer (some (b0 :: b1 :: rest))) s =
      .next { s with wi := true, answer := some (.ok (.bytes [])) })

/-- R106: WRDI clears both latches and nothing else, whatever its address and whatever bytes follow its
word. -/
def Obligations.WrdiClearsBothLatches : Prop :=
  (∀ (a : Addr) (s : State), exec (.wrdi a) s =
    .next { s with wi := false, we := false, answer := some (.ok (.bytes [])) }) ∧
  (∀ (s : State) (b0 b1 : Byte) (rest : List Byte), s.sel = true → (decodeWord (le16 b0 b1)).1 = opWRDI →
    runCall (.transfer (some (b0 :: b1 :: rest))) s =
      .next { s with wi := false, we := false, answer := some (.ok (.bytes [])) })

/-- 42_commands.md, RDSR and WRSR: named, not dispatched, answered `ProtocolViolation` with no state changed
(the spec's decision D5). -/
def Obligations.StatusCommandsAreProtocolViolations : Prop :=
  (∀ (a : Addr) (s : State),
    exec (.rdsr a) s = .next { s with answer := some (.err .protocolViolation) } ∧
    exec (.wrsr a) s = .next { s with answer := some (.err .protocolViolation) }) ∧
  (∀ (s : State) (b0 b1 : Byte) (rest : List Byte), s.sel = true →
    ((decodeWord (le16 b0 b1)).1 = 0b101#3 ∨ (decodeWord (le16 b0 b1)).1 = 0b001#3) →
    runCall (.transfer (some (b0 :: b1 :: rest))) s =
      .next { s with answer := some (.err .protocolViolation) } ∧
      failedCheck (some (b0 :: b1 :: rest)) s = some .unsupportedOpcode)

/-- R110: opcodes `0b000` and `0b111` are answered `ProtocolViolation` once the entry checks have passed,
and write no state. -/
def Obligations.UnassignedOpcodesAreProtocolViolations : Prop :=
  (∀ (a : Addr) (s : State),
    exec (.unassigned000 a) s = .next { s with answer := some (.err .protocolViolation) } ∧
    exec (.unassigned111 a) s = .next { s with answer := some (.err .protocolViolation) }) ∧
  (∀ (s : State) (b0 b1 : Byte) (rest : List Byte), s.sel = true →
    ((decodeWord (le16 b0 b1)).1 = 0b000#3 ∨ (decodeWord (le16 b0 b1)).1 = 0b111#3) →
    runCall (.transfer (some (b0 :: b1 :: rest))) s =
      .next { s with answer := some (.err .protocolViolation) } ∧
      failedCheck (some (b0 :: b1 :: rest)) s = some .unknownOpcode)

/-- The frame of every command: select, the host and its driver stay, and so does every byte of memory that
an honoured WRITE does not address. -/
def Obligations.CommandsKeepSelectHostAndUnaddressedMemory : Prop :=
  ∀ (i : Instr) (s t : State), exec i s = .next t →
    t.sel = s.sel ∧ t.requests = s.requests ∧ t.driver = s.driver ∧
    ∀ x, ¬(s.we = true ∧ StoresAt i x) → t.mem.read x = s.mem.read x

/-- 10_state.md, the writers of memory: a byte changes only by an honoured WRITE that addresses it, or by a
debug write of it. -/
def Obligations.MemoryChangesOnlyByHonouredWriteOrDebugWrite : Prop :=
  ∀ s t : State, step s = .next t → ∀ x, t.mem.read x ≠ s.mem.read x →
    (∃ v, s.nextCall = some (.debugWrite x v)) ∨
    (s.sel = true ∧ s.we = true ∧ ∃ f i, s.nextCall = some (.transfer (some f)) ∧ decode f = .instr i ∧
      StoresAt i x)

/-- 60_exceptions.md, the debug port (the spec's decision D15): it reads and writes one byte past select and
the latches, and changes neither. -/
def Obligations.DebugPortReachesOneByteAndNothingElse : Prop :=
  ∀ (a : Addr) (v : Byte) (s : State),
    runCall (.debugRead a) s = .next (s.withAnswer (.ok (.byte (s.mem.read a)))) ∧
    ∃ t, runCall (.debugWrite a v) s = .next t ∧ t = (s.withMem t.mem).withAnswer (.ok .unit) ∧
      t.mem.read a = v ∧ ∀ x, x ≠ a → t.mem.read x = s.mem.read x

/-- 40_codec.md: ENCODE and DECODE as calls return the codec's value and write no state. -/
def Obligations.CodecCallsArePure : Prop :=
  ∀ (op : Opcode) (a : Addr) (w : Word) (s : State),
    runCall (.encode op a) s = .next (s.withAnswer (.ok (.word (encodeWord op a)))) ∧
    runCall (.decode w) s = .next (s.withAnswer (.ok (.fields (decodeWord w).1 (decodeWord w).2)))

/-! ## Construction and the invariant -/

/-- 70_reset_and_hazards.md: select deasserted (the spec's decision D11), both latches clear, every address
as `INIT_MEMORY` gives it (D12), the driver working (D20); the model's own fields are empty. -/
def Obligations.ConstructionState : Prop :=
  State.reset.sel = false ∧ State.reset.latch = .idle ∧ State.reset.driver.isWorking = true ∧
  (∀ a : Addr, State.reset.mem.read a = Config.initMemory a) ∧
  State.reset.answer = none ∧ State.reset.requests = [] ∧
  State.reset.driver.job = none ∧ State.reset.driver.result = none

/-- The invariant holds at construction. -/
def Obligations.ConstructionMeetsTheInvariant : Prop := Invariant State.reset

/-- Every step keeps the invariant: the memory list stays canonical, and a driver operation under way stays
where its sequence says, with the latches as its pulses have left them. -/
def Obligations.EveryStepKeepsTheInvariant : Prop :=
  ∀ s t : State, Invariant s → step s = .next t → Invariant t

/-- From a state that meets the invariant no step faults, and a step is refused only at a writeByteArray
whose data is shorter than its length. -/
def Obligations.NoStepStopsButShortDriverData : Prop :=
  ∀ s : State, Invariant s → (∃ t, step s = .next t) ∨
    (step s = .refused .dataShorterThanLength ∧ ∃ n data len rest, s.driver.job = none ∧
      s.requests = .driver (.writeByteArray n (some data) len) :: rest ∧ data.length < len.toNat)

/-! ## The host driver -/

/-- 45_host_sequences.md, validation: the address is checked first, then the soft-switch, and neither
failure makes a transport call (their order is the spec's decision D19). -/
def Obligations.DriverValidatesBeforeAnyCall : Prop :=
  ∀ (s : State) (op : DriverOp) (n : Nat) (rest : List Request), s.driver.job = none →
    s.requests = .driver op :: rest → op.address = some n →
    (511 < n → step s = .next { s with requests := rest, driver :=
      { s.driver with result := some (.err .addressOutOfRange) } }) ∧
    (n ≤ 511 → s.driver.isWorking = false → step s = .next { s with requests := rest, driver :=
      { s.driver with result := some (.err .deviceStopped) } })

/-- 45_host_sequences.md: an array operation with length 0, or with null data, is InvalidArgument once the
address and the soft-switch are right, and makes no transport call (order: D19). -/
def Obligations.ArrayOperationsCheckTheirArguments : Prop :=
  ∀ (s : State) (op : DriverOp) (n : Nat) (rest : List Request), s.driver.job = none →
    s.requests = .driver op :: rest → n ≤ 511 → s.driver.isWorking = true →
    (op = .readByteArray n 0 ∨ (∃ data, op = .writeByteArray n data 0) ∨
      (∃ len, op = .writeByteArray n none len)) →
    step s = .next { s with requests := rest, driver :=
      { s.driver with result := some (.err .invalidArgument) } }

/-- 45_host_sequences.md, the soft-switch: stop and resume set `isWorking`, never fail, and do not touch the
block (that they are idempotent setters is the spec's decision D20). -/
def Obligations.StopAndResumeSetOnlyTheSoftSwitch : Prop :=
  ∀ (s : State) (rest : List Request), s.driver.job = none →
    (s.requests = .driver .stop :: rest → step s = .next { s with requests := rest, driver :=
      { isWorking := false, job := none, result := some (.ok .unit) } }) ∧
    (s.requests = .driver .resume :: rest → step s = .next { s with requests := rest, driver :=
      { isWorking := true, job := none, result := some (.ok .unit) } })

/-- R130: a pulse is assertSelect, transfer of its frame, deassertSelect, and select is deasserted after it,
also when the transfer was answered an error. That each call is one step is log entry 19's choice. -/
def Obligations.APulseIsThreeCallsAndEndsDeasserted : Prop :=
  ∀ (s : State) (j : Job), s.driver.job = some j → j.phase = .select →
    ∃ u v, runCall .assertSelect s = .next u ∧ runCall (.transfer (some j.frame)) u = .next v ∧
      steps 2 s = .next { v with driver := { v.driver with job := some { j with phase := .release } } } ∧
      (∀ t, steps 3 s = .next t → t.sel = false ∧ t.wi = v.wi ∧ t.we = v.we ∧ t.mem = v.mem ∧
        t.answer = some (.ok (.bytes [])) ∧ t.requests = v.requests ∧
        t.driver.isWorking = v.driver.isWorking) ∧
      (Invariant s → ∃ t, steps 3 s = .next t) ∧
      (∀ k, v.answer = some (.err k) → ∃ t, steps 3 s = .next t)

/-- R133: when a pulse's transfer returned an error, the operation returns it at once, makes no further
pulse, leaves select deasserted, and undoes nothing. -/
def Obligations.AFailedPulseAbortsTheOperation : Prop :=
  ∀ (s : State) (j : Job) (k : ErrorKind), s.driver.job = some j →
    j.phase = .release → s.answer = some (.err k) →
    step s = .next { s with sel := false, answer := some (.ok (.bytes [])), driver :=
      { s.driver with job := none, result := some (.err k) } }

/-- While an operation is under way the step makes the call its pulse is at, and no other: what the step
leaves in the block, and as the interface's answer, is what that call leaves. Requests wait (one host, one
call at a time; the spec's decision D26). -/
def Obligations.AnOperationRunsBeforeTheNextRequest : Prop :=
  ∀ (s t : State) (j : Job), s.driver.job = some j → step s = .next t →
    (∃ u, runCall j.call s = .next u ∧ SameBlock u t ∧ t.answer = u.answer) ∧
    t.requests = s.requests ∧ t.driver.isWorking = s.driver.isWorking

/-- 45_host_sequences.md, writeByte from any latch state and any select level: the byte is written, nothing
else is, and the block ends deasserted and IDLE. The number of steps is log
entry 19's choice. -/
def Obligations.WriteByteIsHonouredFromAnyLatchState : Prop :=
  ∀ (s : State) (n : Nat) (v : Byte) (rest : List Request), s.driver.job = none →
    s.requests = .driver (.writeByte n v) :: rest → n ≤ 511 → s.driver.isWorking = true →
    ∃ t, steps 10 s = .next t ∧ OpDone s t rest (.ok .unit) ∧ t.latch = .idle ∧
      t.mem.read (BitVec.ofNat 9 n) = v ∧ ∀ x, x ≠ BitVec.ofNat 9 n → t.mem.read x = s.mem.read x

/-- 45_host_sequences.md, writeBit: bit 7 is the value, the other seven bits and every other byte stay, and
the block ends deasserted and IDLE. The number of steps is log
entry 19's choice. -/
def Obligations.WriteBitChangesOnlyBitSeven : Prop :=
  ∀ (s : State) (n : Nat) (v : BitVec 1) (rest : List Request), s.driver.job = none →
    s.requests = .driver (.writeBit n v) :: rest → n ≤ 511 → s.driver.isWorking = true →
    ∃ t, steps 13 s = .next t ∧ OpDone s t rest (.ok .unit) ∧ t.latch = .idle ∧
      (t.mem.read (BitVec.ofNat 9 n)).getLsbD 7 = v.getLsbD 0 ∧
      (∀ i, i < 7 → (t.mem.read (BitVec.ofNat 9 n)).getLsbD i = (s.mem.read (BitVec.ofNat 9 n)).getLsbD i) ∧
      ∀ x, x ≠ BitVec.ofNat 9 n → t.mem.read x = s.mem.read x

/-- 45_host_sequences.md, writeByteArray: byte `k` of the first `L` data bytes goes to `(a + k) mod 512`, a
later byte to the same address winning. The number of steps is log
entry 19's choice. -/
def Obligations.WriteByteArrayStoresItsDataWrapping : Prop :=
  ∀ (s : State) (n : Nat) (data : List Byte) (len : Len) (rest : List Request), s.driver.job = none →
    s.requests = .driver (.writeByteArray n (some data) len) :: rest → n ≤ 511 →
    s.driver.isWorking = true → len ≠ 0 → len.toNat ≤ data.length →
    ∃ t, steps 10 s = .next t ∧ OpDone s t rest (.ok .unit) ∧ t.latch = .idle ∧
      (∀ x, (∀ k, k < len.toNat → wrapAddr (BitVec.ofNat 9 n) k ≠ x) → t.mem.read x = s.mem.read x) ∧
      (∀ k b, k < len.toNat → len.toNat ≤ k + 512 → data[k]? = some b →
        t.mem.read (wrapAddr (BitVec.ofNat 9 n) k) = b)

/-- 45_host_sequences.md, the three reads: what each returns, in one pulse that leaves memory as it was. A
WREN left pending is promoted by the pulse's assert. The number of steps is log entry 19's choice. -/
def Obligations.DriverReadsReturnMemory : Prop :=
  ∀ (s : State) (n : Nat) (op : DriverOp) (rest : List Request), s.driver.job = none →
    s.requests = .driver op :: rest → n ≤ 511 → s.driver.isWorking = true →
    (op = .readByte n ∨ op = .readBit n ∨ ∃ len, op = .readByteArray n len ∧ len ≠ 0) →
    ∃ t r, steps 4 s = .next t ∧ OpDone s t rest (.ok r) ∧ t.mem = s.mem ∧ t.wi = false ∧
      t.we = (s.we || s.wi) ∧
      (op = .readByte n → r = .byte (s.mem.read (BitVec.ofNat 9 n))) ∧
      (op = .readBit n → ∃ b, r = .bit b ∧
        b.getLsbD 0 = (s.mem.read (BitVec.ofNat 9 n)).getLsbD 7) ∧
      (∀ len, op = .readByteArray n len → ∃ bs, r = .bytes bs ∧ bs.length = len.toNat ∧
        ∀ k, k < len.toNat → bs[k]? = some (s.mem.read (BitVec.ofNat 9 ((n + k) % 512))))

/-- 45_host_sequences.md, the round trip of the document's §8: writeByte, then readByte of the same address,
yields the byte, from any state of the block. The number of steps is log
entry 19's choice. -/
def Obligations.WriteByteThenReadByteYieldsTheByte : Prop :=
  ∀ (s : State) (n : Nat) (v : Byte) (rest : List Request), s.driver.job = none →
    s.requests = .driver (.writeByte n v) :: .driver (.readByte n) :: rest → n ≤ 511 →
    s.driver.isWorking = true →
    ∃ t, steps 14 s = .next t ∧ OpDone s t rest (.ok (.byte v)) ∧ t.latch = .idle

/-- 45_host_sequences.md, what a correct block can return: from the invariant, an operation under way never
ends in an error, and one that starts fails only with the three kinds of the driver's own checks. -/
def Obligations.DriverOperationsReturnOnlyTheirOwnErrors : Prop :=
  ∀ (s t : State) (k : ErrorKind), Invariant s → step s = .next t →
    t.driver.result = some (.err k) →
    s.driver.result = some (.err k) ∨
      (s.driver.job = none ∧ SameBlock s t ∧
        (k = .addressOutOfRange ∨ k = .deviceStopped ∨ k = .invalidArgument))

/-- 60_exceptions.md, the codes of the error kinds, in the order of the taxonomy (the spec's decision
D13). -/
def Obligations.ErrorKindsAreNumberedInTaxonomyOrder : Prop :=
  ErrorKind.invalidArgument.code = 1 ∧ ErrorKind.addressOutOfRange.code = 2 ∧
  ErrorKind.deviceStopped.code = 3 ∧ ErrorKind.transportNotReady.code = 4 ∧
  ErrorKind.protocolViolation.code = 5 ∧ ErrorKind.notImplemented.code = 6

/-- 00_scope.md, errors and results: which check failed cannot be observed. Two transfers that fail checks of
one kind leave the same state with the same answer; a transfer is answered `err` exactly when it fails one. -/
def Obligations.FailedChecksOfOneKindCannotBeToldApart : Prop :=
  ∀ s : State,
    (∀ (f g : Option Frame) (x y : ErrorInfo), failedCheck f s = some x → failedCheck g s = some y →
      x.kind = y.kind → runCall (.transfer f) s = runCall (.transfer g) s) ∧
    (∀ (f : Option Frame) (t : State), runCall (.transfer f) s = .next t →
      ((∃ k, t.answer = some (.err k)) ↔ ∃ x, failedCheck f s = some x))
end

