-- ==== Sys2Proof/Laws/State.lean ====
section
/-! SUPPORT. The small lemmas of State: one for each field under each update, and of the driver's three
updates, so that no proof unfolds a record update. -/

namespace Sys2Proof.Machine

variable (s : State)

@[simp] theorem State.withSel_sel (b : Bool) : (s.withSel b).sel = b := rfl
@[simp] theorem State.withSel_wi (b : Bool) : (s.withSel b).wi = s.wi := rfl
@[simp] theorem State.withSel_we (b : Bool) : (s.withSel b).we = s.we := rfl
@[simp] theorem State.withSel_mem (b : Bool) : (s.withSel b).mem = s.mem := rfl
@[simp] theorem State.withSel_answer (b : Bool) : (s.withSel b).answer = s.answer := rfl
@[simp] theorem State.withSel_requests (b : Bool) : (s.withSel b).requests = s.requests := rfl
@[simp] theorem State.withSel_driver (b : Bool) : (s.withSel b).driver = s.driver := rfl

@[simp] theorem State.withWi_sel (b : Bool) : (s.withWi b).sel = s.sel := rfl
@[simp] theorem State.withWi_wi (b : Bool) : (s.withWi b).wi = b := rfl
@[simp] theorem State.withWi_we (b : Bool) : (s.withWi b).we = s.we := rfl
@[simp] theorem State.withWi_mem (b : Bool) : (s.withWi b).mem = s.mem := rfl
@[simp] theorem State.withWi_answer (b : Bool) : (s.withWi b).answer = s.answer := rfl
@[simp] theorem State.withWi_requests (b : Bool) : (s.withWi b).requests = s.requests := rfl
@[simp] theorem State.withWi_driver (b : Bool) : (s.withWi b).driver = s.driver := rfl

@[simp] theorem State.withWe_sel (b : Bool) : (s.withWe b).sel = s.sel := rfl
@[simp] theorem State.withWe_wi (b : Bool) : (s.withWe b).wi = s.wi := rfl
@[simp] theorem State.withWe_we (b : Bool) : (s.withWe b).we = b := rfl
@[simp] theorem State.withWe_mem (b : Bool) : (s.withWe b).mem = s.mem := rfl
@[simp] theorem State.withWe_answer (b : Bool) : (s.withWe b).answer = s.answer := rfl
@[simp] theorem State.withWe_requests (b : Bool) : (s.withWe b).requests = s.requests := rfl
@[simp] theorem State.withWe_driver (b : Bool) : (s.withWe b).driver = s.driver := rfl

@[simp] theorem State.withMem_sel (m : Memory) : (s.withMem m).sel = s.sel := rfl
@[simp] theorem State.withMem_wi (m : Memory) : (s.withMem m).wi = s.wi := rfl
@[simp] theorem State.withMem_we (m : Memory) : (s.withMem m).we = s.we := rfl
@[simp] theorem State.withMem_mem (m : Memory) : (s.withMem m).mem = m := rfl
@[simp] theorem State.withMem_answer (m : Memory) : (s.withMem m).answer = s.answer := rfl
@[simp] theorem State.withMem_requests (m : Memory) : (s.withMem m).requests = s.requests := rfl
@[simp] theorem State.withMem_driver (m : Memory) : (s.withMem m).driver = s.driver := rfl

@[simp] theorem State.withAnswer_sel (r : Answer) : (s.withAnswer r).sel = s.sel := rfl
@[simp] theorem State.withAnswer_wi (r : Answer) : (s.withAnswer r).wi = s.wi := rfl
@[simp] theorem State.withAnswer_we (r : Answer) : (s.withAnswer r).we = s.we := rfl
@[simp] theorem State.withAnswer_mem (r : Answer) : (s.withAnswer r).mem = s.mem := rfl
@[simp] theorem State.withAnswer_answer (r : Answer) : (s.withAnswer r).answer = some r := rfl
@[simp] theorem State.withAnswer_requests (r : Answer) : (s.withAnswer r).requests = s.requests := rfl
@[simp] theorem State.withAnswer_driver (r : Answer) : (s.withAnswer r).driver = s.driver := rfl

@[simp] theorem State.withRequests_sel (rs : List Request) : (s.withRequests rs).sel = s.sel := rfl
@[simp] theorem State.withRequests_wi (rs : List Request) : (s.withRequests rs).wi = s.wi := rfl
@[simp] theorem State.withRequests_we (rs : List Request) : (s.withRequests rs).we = s.we := rfl
@[simp] theorem State.withRequests_mem (rs : List Request) : (s.withRequests rs).mem = s.mem := rfl
@[simp] theorem State.withRequests_answer (rs : List Request) : (s.withRequests rs).answer = s.answer := rfl
@[simp] theorem State.withRequests_requests (rs : List Request) : (s.withRequests rs).requests = rs := rfl
@[simp] theorem State.withRequests_driver (rs : List Request) : (s.withRequests rs).driver = s.driver := rfl

@[simp] theorem State.withDriver_sel (d : Driver) : (s.withDriver d).sel = s.sel := rfl
@[simp] theorem State.withDriver_wi (d : Driver) : (s.withDriver d).wi = s.wi := rfl
@[simp] theorem State.withDriver_we (d : Driver) : (s.withDriver d).we = s.we := rfl
@[simp] theorem State.withDriver_mem (d : Driver) : (s.withDriver d).mem = s.mem := rfl
@[simp] theorem State.withDriver_answer (d : Driver) : (s.withDriver d).answer = s.answer := rfl
@[simp] theorem State.withDriver_requests (d : Driver) : (s.withDriver d).requests = s.requests := rfl
@[simp] theorem State.withDriver_driver (d : Driver) : (s.withDriver d).driver = d := rfl

@[simp] theorem withJob_sel (j : Job) : (withJob j s).sel = s.sel := rfl
@[simp] theorem withJob_wi (j : Job) : (withJob j s).wi = s.wi := rfl
@[simp] theorem withJob_we (j : Job) : (withJob j s).we = s.we := rfl
@[simp] theorem withJob_mem (j : Job) : (withJob j s).mem = s.mem := rfl
@[simp] theorem withJob_answer (j : Job) : (withJob j s).answer = s.answer := rfl
@[simp] theorem withJob_requests (j : Job) : (withJob j s).requests = s.requests := rfl
@[simp] theorem withJob_driver (j : Job) :
    (withJob j s).driver = { s.driver with job := some j, result := s.driver.result } := rfl

@[simp] theorem finishOp_sel (r : Answer) : (finishOp r s).sel = s.sel := rfl
@[simp] theorem finishOp_wi (r : Answer) : (finishOp r s).wi = s.wi := rfl
@[simp] theorem finishOp_we (r : Answer) : (finishOp r s).we = s.we := rfl
@[simp] theorem finishOp_mem (r : Answer) : (finishOp r s).mem = s.mem := rfl
@[simp] theorem finishOp_answer (r : Answer) : (finishOp r s).answer = s.answer := rfl
@[simp] theorem finishOp_requests (r : Answer) : (finishOp r s).requests = s.requests := rfl
@[simp] theorem finishOp_driver (r : Answer) :
    (finishOp r s).driver = { s.driver with job := none, result := some r } := rfl

@[simp] theorem arm_sel : (arm s).sel = s.sel := rfl
@[simp] theorem arm_wi : (arm s).wi = true := rfl
@[simp] theorem arm_we : (arm s).we = s.we := rfl
@[simp] theorem arm_mem : (arm s).mem = s.mem := rfl
@[simp] theorem arm_answer : (arm s).answer = s.answer := rfl
@[simp] theorem arm_requests : (arm s).requests = s.requests := rfl
@[simp] theorem arm_driver : (arm s).driver = s.driver := rfl

@[simp] theorem disarm_sel : (disarm s).sel = s.sel := rfl
@[simp] theorem disarm_wi : (disarm s).wi = false := rfl
@[simp] theorem disarm_we : (disarm s).we = false := rfl
@[simp] theorem disarm_mem : (disarm s).mem = s.mem := rfl
@[simp] theorem disarm_answer : (disarm s).answer = s.answer := rfl
@[simp] theorem disarm_requests : (disarm s).requests = s.requests := rfl
@[simp] theorem disarm_driver : (disarm s).driver = s.driver := rfl

@[simp] theorem dropPending_sel : (dropPending s).sel = s.sel := rfl
@[simp] theorem dropPending_wi : (dropPending s).wi = false := rfl
@[simp] theorem dropPending_we : (dropPending s).we = s.we := rfl
@[simp] theorem dropPending_mem : (dropPending s).mem = s.mem := rfl
@[simp] theorem dropPending_answer : (dropPending s).answer = s.answer := rfl
@[simp] theorem dropPending_requests : (dropPending s).requests = s.requests := rfl
@[simp] theorem dropPending_driver : (dropPending s).driver = s.driver := rfl

@[simp] theorem promote_sel : (promote s).sel = s.sel := by cases h : s.wi <;> simp [promote, h]
@[simp] theorem promote_wi : (promote s).wi = false := by cases h : s.wi <;> simp [promote, h]
@[simp] theorem promote_we : (promote s).we = (s.we || s.wi) := by cases h : s.wi <;> simp [promote, h]
@[simp] theorem promote_mem : (promote s).mem = s.mem := by cases h : s.wi <;> simp [promote, h]
@[simp] theorem promote_answer : (promote s).answer = s.answer := by cases h : s.wi <;> simp [promote, h]
@[simp] theorem promote_requests : (promote s).requests = s.requests := by
  cases h : s.wi <;> simp [promote, h]
@[simp] theorem promote_driver : (promote s).driver = s.driver := by cases h : s.wi <;> simp [promote, h]

/-- Two states with the same fields are the same state. -/
theorem State.ext_fields {s t : State} (hsel : s.sel = t.sel) (hwi : s.wi = t.wi) (hwe : s.we = t.we)
    (hmem : s.mem = t.mem) (ha : s.answer = t.answer) (hr : s.requests = t.requests)
    (hd : s.driver = t.driver) : s = t := by
  cases s; cases t; simp_all

end Sys2Proof.Machine
end

