-- ==== Sys2Proof/Laws/Calls.lean ====
section
/-! SUPPORT. What a command and what an interface call can do, said once: every later proof cites these and
unfolds no meaning. -/

namespace Sys2Proof.Machine

/-! ## The shared operations -/

theorem reply_eq_next {v : Value} {s t : State} : reply v s = .next t ↔ t = s.withAnswer (.ok v) := by
  simp [reply, eq_comm]

theorem raise_eq_next {info : ErrorInfo} {s t : State} :
    raise info s = .next t ↔ t = s.withAnswer (.err info.kind) := by
  simp [raise, eq_comm]

theorem andThen_eq_next {r : Result} {f : State → Result} {t : State} :
    andThen r f = .next t ↔ ∃ u, r = .next u ∧ f u = .next t := by
  cases r <;> simp [andThen]

/-! ## Commands -/

/-- Everything a command can do. -/
theorem exec_cases {i : Instr} {s t : State} (h : exec i s = .next t) :
    (∃ a len, i = .read a len ∧ t = s.withAnswer (.ok (.bytes (readRun s.mem a len.toNat)))) ∨
    (∃ a p, i = .write a p ∧ s.we = true ∧
      t = (s.withMem (writeRun s.mem a p)).withAnswer (.ok (.bytes []))) ∨
    (∃ a p, i = .write a p ∧ s.we = false ∧ t = (dropPending s).withAnswer (.ok (.bytes []))) ∨
    (∃ a, i = .wren a ∧ t = (arm s).withAnswer (.ok (.bytes []))) ∨
    (∃ a, i = .wrdi a ∧ t = (disarm s).withAnswer (.ok (.bytes []))) ∨
    (commandEvent i = .error ∧ t = s.withAnswer (.err .protocolViolation)) := by
  cases i with
  | read a len => exact .inl ⟨a, len, rfl, reply_eq_next.mp h⟩
  | write a p =>
    cases hwe : s.we
    · refine .inr (.inr (.inl ⟨a, p, rfl, rfl, reply_eq_next.mp ?_⟩))
      simpa [exec, execWrite, hwe] using h
    · refine .inr (.inl ⟨a, p, rfl, rfl, reply_eq_next.mp ?_⟩)
      simpa [exec, execWrite, hwe] using h
  | wren a => exact .inr (.inr (.inr (.inl ⟨a, rfl, reply_eq_next.mp h⟩)))
  | wrdi a => exact .inr (.inr (.inr (.inr (.inl ⟨a, rfl, reply_eq_next.mp h⟩))))
  | rdsr a => exact .inr (.inr (.inr (.inr (.inr ⟨rfl, raise_eq_next.mp h⟩))))
  | wrsr a => exact .inr (.inr (.inr (.inr (.inr ⟨rfl, raise_eq_next.mp h⟩))))
  | unassigned000 a => exact .inr (.inr (.inr (.inr (.inr ⟨rfl, raise_eq_next.mp h⟩))))
  | unassigned111 a => exact .inr (.inr (.inr (.inr (.inr ⟨rfl, raise_eq_next.mp h⟩))))

/-- No command stops the machine. -/
theorem exec_next (i : Instr) (s : State) : ∃ t, exec i s = .next t := by
  cases i <;> simp only [exec, execRead, execWrite, execWren, execWrdi, execRdsr, execWrsr, execUnassigned000,
    execUnassigned111, reply, raise] <;> try split <;> exact ⟨_, rfl⟩
  all_goals exact ⟨_, rfl⟩

/-! ## Interface calls -/

@[simp] theorem frameErrorInfo_kind (e : FrameError) : (frameErrorInfo e).kind = .protocolViolation := by
  cases e <;> rfl

/-- A command the block does not dispatch raises its own check. -/
theorem exec_of_errorInfo {i : Instr} {info : ErrorInfo} (h : commandErrorInfo i = some info) (s : State) :
    exec i s = raise info s := by
  cases i <;> cases h <;> rfl

/-- A transfer that fails a check raises it, and depends on the frame in no other way. -/
theorem transfer_of_failedCheck {frame : Option Frame} {s : State} {info : ErrorInfo}
    (h : failedCheck frame s = some info) : runCall (.transfer frame) s = raise info s := by
  simp only [runCall, transfer]
  simp only [failedCheck] at h
  cases hs : s.sel <;> simp only [hs, Bool.false_eq_true, if_false, if_true] at h ⊢
  · cases h; rfl
  · cases frame with
    | none => cases h; rfl
    | some f =>
      cases hd : decode f with
      | reject e =>
        simp only [hd] at h ⊢
        cases h; rfl
      | instr i =>
        simp only [hd] at h ⊢
        exact exec_of_errorInfo h s

/-- Everything a transfer can do: the select check, a null or malformed frame, or the command. -/
theorem transfer_cases {frame : Option Frame} {s t : State} (h : runCall (.transfer frame) s = .next t) :
    (s.sel = false ∧ t = s.withAnswer (.err .transportNotReady)) ∨
    (s.sel = true ∧ (frame = none ∨ ∃ f e, frame = some f ∧ decode f = .reject e) ∧
      t = s.withAnswer (.err .protocolViolation)) ∨
    (s.sel = true ∧ ∃ f i, frame = some f ∧ decode f = .instr i ∧ exec i s = .next t) := by
  simp only [runCall, transfer] at h
  cases hs : s.sel
  · simp only [hs, Bool.false_eq_true, if_false] at h
    exact .inl ⟨rfl, raise_eq_next.mp h⟩
  · simp only [hs, if_true] at h
    cases frame with
    | none => exact .inr (.inl ⟨rfl, .inl rfl, raise_eq_next.mp h⟩)
    | some f =>
      cases hd : decode f with
      | reject e =>
        simp only [hd] at h
        refine .inr (.inl ⟨rfl, .inr ⟨f, e, rfl, hd⟩, ?_⟩)
        rw [← frameErrorInfo_kind e]
        exact raise_eq_next.mp h
      | instr i =>
        simp only [hd] at h
        exact .inr (.inr ⟨rfl, f, i, rfl, hd, h⟩)

/-- A transfer of a frame that decodes, select being asserted, is the command. -/
theorem transfer_of_decode {f : Frame} {i : Instr} {s : State} (hs : s.sel = true) (hd : decode f = .instr i) :
    runCall (.transfer (some f)) s = exec i s := by
  simp [runCall, transfer, hs, hd]

/-- No interface call stops the machine. -/
theorem runCall_next (c : Call) (s : State) : ∃ t, runCall c s = .next t := by
  cases c with
  | transfer frame =>
    simp only [runCall, transfer]
    split
    · cases frame with
      | none => exact ⟨_, rfl⟩
      | some f =>
        dsimp only
        cases hd : decode f with
        | reject e => exact ⟨_, rfl⟩
        | instr i => exact exec_next i s
    · exact ⟨_, rfl⟩
  | assertSelect => exact ⟨_, rfl⟩
  | deassertSelect => exact ⟨_, rfl⟩
  | encode op a => exact ⟨_, rfl⟩
  | decode w => exact ⟨_, rfl⟩
  | debugRead a => exact ⟨_, rfl⟩
  | debugWrite a v => exact ⟨_, rfl⟩

theorem assertSelect_eq (s : State) :
    runCall .assertSelect s = .next ((promote (s.withSel true)).withAnswer (.ok (.bytes []))) := rfl

theorem deassertSelect_eq (s : State) :
    runCall .deassertSelect s = .next ((s.withSel false).withAnswer (.ok (.bytes []))) := rfl

/-- A call touches nothing of the host: its later requests and its driver stay. -/
theorem runCall_host {c : Call} {s t : State} (h : runCall c s = .next t) :
    t.requests = s.requests ∧ t.driver = s.driver := by
  cases c with
  | transfer frame =>
    obtain ⟨-, rfl⟩ | ⟨-, -, -, rfl⟩ | ⟨-, -, i, -, -, h⟩ := transfer_cases h
    · exact ⟨rfl, rfl⟩
    · exact ⟨rfl, rfl⟩
    · obtain ⟨_, _, -, rfl⟩ | ⟨_, _, -, -, rfl⟩ | ⟨_, _, -, -, rfl⟩ | ⟨_, -, rfl⟩ | ⟨_, -, rfl⟩ | ⟨-, _, rfl⟩ :=
        exec_cases h <;> exact ⟨rfl, rfl⟩
  | assertSelect =>
    obtain rfl := reply_eq_next.mp h
    simp
  | deassertSelect => obtain rfl := reply_eq_next.mp h; exact ⟨rfl, rfl⟩
  | encode op a => obtain rfl := reply_eq_next.mp h; exact ⟨rfl, rfl⟩
  | decode w => obtain rfl := reply_eq_next.mp h; exact ⟨rfl, rfl⟩
  | debugRead a => obtain rfl := reply_eq_next.mp h; exact ⟨rfl, rfl⟩
  | debugWrite a v => obtain rfl := reply_eq_next.mp h; exact ⟨rfl, rfl⟩

/-- A command does not look at the host driver. -/
theorem exec_withDriver (i : Instr) (s : State) (d : Driver) :
    exec i (s.withDriver d) = andThen (exec i s) fun t => .next (t.withDriver d) := by
  cases i with
  | write a p => cases h : s.we <;> simp [exec, execWrite, h, andThen, reply] <;> rfl
  | read a len => rfl
  | wren a => rfl
  | wrdi a => rfl
  | rdsr a => rfl
  | wrsr a => rfl
  | unassigned000 a => rfl
  | unassigned111 a => rfl

/-- A call does not look at the host driver. -/
theorem runCall_withDriver (c : Call) (s : State) (d : Driver) :
    runCall c (s.withDriver d) = andThen (runCall c s) fun t => .next (t.withDriver d) := by
  cases c with
  | transfer frame =>
    cases h : s.sel
    · simp [runCall, transfer, h, raise, andThen]
      rfl
    · simp only [runCall, transfer, h, State.withDriver_sel, if_true]
      cases frame with
      | none => rfl
      | some f =>
        dsimp only
        cases decode f with
        | reject e => rfl
        | instr i => exact exec_withDriver i s d
  | assertSelect =>
    cases h : s.wi <;> simp [runCall, assertSelect, promote, h, reply, andThen] <;> rfl
  | deassertSelect => rfl
  | encode op a => rfl
  | decode w => rfl
  | debugRead a => rfl
  | debugWrite a v => rfl

end Sys2Proof.Machine
end

