-- ==== Sys2Proof/Laws/Decode.lean ====
section
/-! SUPPORT. The byte order and the fields of the word, as arithmetic on naturals. -/

namespace Sys2Proof

theorem loByte_toNat (x : BitVec 16) : (loByte x).toNat = x.toNat % 256 := by
  simp only [loByte, BitVec.toNat_setWidth, BitVec.toNat_and]
  rw [show (0xFF#16).toNat = 2 ^ 8 - 1 from rfl, Nat.and_two_pow_sub_one_eq_mod]
  omega

theorem hiByte_toNat (x : BitVec 16) : (hiByte x).toNat = x.toNat / 256 := by
  have := x.isLt
  simp only [hiByte, BitVec.toNat_setWidth, BitVec.toNat_ushiftRight, Nat.shiftRight_eq_div_pow]
  omega

/-- An OR of fields that do not overlap is a sum. -/
theorem or_shiftLeft_eq_add (lo hi k : Nat) (h : lo < 2 ^ k) : lo ||| (hi <<< k) = lo + 2 ^ k * hi := by
  rw [Nat.or_comm, Nat.shiftLeft_eq, Nat.mul_comm, ← Nat.two_pow_add_eq_or_of_lt h]
  omega

theorem le16_toNat (lo hi : Byte) : (le16 lo hi).toNat = lo.toNat + 256 * hi.toNat := by
  have h1 := lo.isLt
  have h2 := hi.isLt
  simp only [le16, BitVec.toNat_or, BitVec.toNat_setWidth, BitVec.toNat_shiftLeft]
  rw [Nat.mod_eq_of_lt (by omega : lo.toNat < 2 ^ 16), Nat.mod_eq_of_lt (by omega : hi.toNat < 2 ^ 16),
    Nat.mod_eq_of_lt (by rw [Nat.shiftLeft_eq]; omega), or_shiftLeft_eq_add _ _ _ (by omega)]
  omega

/-- The two bytes of a 16-bit field, put together again. -/
@[simp] theorem le16_loByte_hiByte (x : BitVec 16) : le16 (loByte x) (hiByte x) = x := by
  apply BitVec.eq_of_toNat_eq
  rw [le16_toNat, loByte_toNat, hiByte_toNat]
  omega

theorem decodeWord_opcode_toNat (w : Word) : (decodeWord w).1.toNat = w.toNat % 8 := by
  simp only [decodeWord, BitVec.toNat_setWidth, BitVec.toNat_and]
  rw [show (0x7#16).toNat = 2 ^ 3 - 1 from rfl, Nat.and_two_pow_sub_one_eq_mod]
  omega

theorem decodeWord_addr_toNat (w : Word) : (decodeWord w).2.toNat = w.toNat / 8 % 512 := by
  simp only [decodeWord, BitVec.toNat_setWidth, BitVec.toNat_and, BitVec.toNat_ushiftRight,
    Nat.shiftRight_eq_div_pow]
  rw [show (0x1FF#16).toNat = 2 ^ 9 - 1 from rfl, Nat.and_two_pow_sub_one_eq_mod]
  omega

/-- The decoder past the short-frame check. -/
theorem decode_cons_cons (b0 b1 : Byte) (rest : List Byte) : decode (b0 :: b1 :: rest) =
    decodeCommand (decodeWord (le16 b0 b1)).1 (decodeWord (le16 b0 b1)).2 rest := rfl

/-- The decoder past the header that `encode` writes. -/
theorem decode_header_append (op : Opcode) (a : Addr) (rest : List Byte) : decode (header op a ++ rest) =
    decodeCommand (decodeWord (encodeWord op a)).1 (decodeWord (encodeWord op a)).2 rest := by
  simp [header, decode]

/-- A 3-bit value is one of the eight opcodes. -/
theorem opcode_cases (op : Opcode) : op = opREAD ∨ op = opWRITE ∨ op = opWREN ∨ op = opWRDI ∨
    op = opRDSR ∨ op = opWRSR ∨ op = opUnassigned000 ∨ op = opUnassigned111 := by
  revert op
  decide

/-- What the selection of R101 gives for each opcode. -/
theorem decodeCommand_opREAD (a : Addr) (rest : List Byte) : decodeCommand opREAD a rest = decodeRead a rest := rfl
theorem decodeCommand_opWRITE (a : Addr) (rest : List Byte) : decodeCommand opWRITE a rest = decodeWrite a rest := rfl
theorem decodeCommand_opWREN (a : Addr) (rest : List Byte) : decodeCommand opWREN a rest = .instr (.wren a) := rfl
theorem decodeCommand_opWRDI (a : Addr) (rest : List Byte) : decodeCommand opWRDI a rest = .instr (.wrdi a) := rfl
theorem decodeCommand_opRDSR (a : Addr) (rest : List Byte) : decodeCommand opRDSR a rest = .instr (.rdsr a) := rfl
theorem decodeCommand_opWRSR (a : Addr) (rest : List Byte) : decodeCommand opWRSR a rest = .instr (.wrsr a) := rfl
theorem decodeCommand_opUnassigned000 (a : Addr) (rest : List Byte) :
    decodeCommand opUnassigned000 a rest = .instr (.unassigned000 a) := rfl
theorem decodeCommand_opUnassigned111 (a : Addr) (rest : List Byte) :
    decodeCommand opUnassigned111 a rest = .instr (.unassigned111 a) := rfl

end Sys2Proof
end

