-- ==== Sys2Proof/Laws/Memory.lean ====
section
/-! SUPPORT. The laws of memory: a read after a write, the canonical form, equal memories are equal lists,
and what a run of bytes written or read does at each address. -/

namespace Sys2Proof.Machine

/-! ## One byte -/

theorem Memory.find_insert_same (m : Memory) (n : Nat) (v : Byte) :
    Memory.find (Memory.insert m n v) n = some v := by
  induction m with
  | nil => simp [Memory.insert, Memory.find]
  | cons c cs ih =>
    simp only [Memory.insert]
    split
    · simp [Memory.find]
    · split
      · simp [Memory.find]
      · have hne : ¬ c.1 = n := fun h => by omega
        simp [Memory.find, hne, ih]

theorem Memory.find_insert_other (m : Memory) {n n' : Nat} (v : Byte) (h : n' ≠ n) :
    Memory.find (Memory.insert m n v) n' = Memory.find m n' := by
  induction m with
  | nil => simp [Memory.insert, Memory.find, h.symm]
  | cons c cs ih =>
    simp only [Memory.insert]
    split
    · simp [Memory.find, h.symm]
    · split
      · rename_i hc
        have hne : ¬ c.1 = n' := fun e => h (by omega)
        simp [Memory.find, h.symm, hne]
      · simp only [Memory.find, ih]

@[simp] theorem Memory.read_write_same (m : Memory) (a : Addr) (v : Byte) : (m.write a v).read a = v := by
  simp [Memory.read, Memory.write, Memory.find_insert_same]

theorem Memory.read_write_other (m : Memory) {a x : Addr} (v : Byte) (h : x ≠ a) :
    (m.write a v).read x = m.read x := by
  have : x.toNat ≠ a.toNat := fun e => h (BitVec.eq_of_toNat_eq e)
  simp [Memory.read, Memory.write, Memory.find_insert_other _ _ this]

@[simp] theorem Memory.read_nil (a : Addr) : Memory.read [] a = Config.initMemory a := rfl

/-! ## The canonical form -/

theorem Memory.mem_insert {m : Memory} {n : Nat} {v : Byte} {c : Host.Cell}
    (h : c ∈ Memory.insert m n v) : c = (n, v) ∨ c ∈ m := by
  induction m with
  | nil => simpa [Memory.insert] using h
  | cons d ds ih =>
    simp only [Memory.insert] at h
    split at h
    · simpa using h
    · split at h
      · rcases List.mem_cons.mp h with h | h
        · exact .inl h
        · exact .inr (List.mem_cons_of_mem _ h)
      · rcases List.mem_cons.mp h with h | h
        · exact .inr (by simp [h])
        · exact (ih h).imp_right (List.mem_cons_of_mem _)

theorem Memory.insert_wf {m : Memory} (hm : m.wf) {n : Nat} (hn : n < Config.memSize) (v : Byte) :
    Memory.wf (Memory.insert m n v) := by
  refine ⟨?_, fun c hc => ?_⟩
  · obtain ⟨hp, -⟩ := hm
    induction m with
    | nil => simp [Memory.insert]
    | cons d ds ih =>
      obtain ⟨hd, hds⟩ := List.pairwise_cons.mp hp
      simp only [Memory.insert]
      split
      · rename_i hlt
        refine List.pairwise_cons.mpr ⟨fun c hc => ?_, hp⟩
        rcases List.mem_cons.mp hc with rfl | hc
        · exact hlt
        · exact Nat.lt_trans hlt (hd c hc)
      · split
        · rename_i heq
          exact List.pairwise_cons.mpr ⟨fun c hc => heq ▸ hd c hc, hds⟩
        · refine List.pairwise_cons.mpr ⟨fun c hc => ?_, ih hds⟩
          rcases Memory.mem_insert hc with rfl | hc
          · show d.1 < n
            omega
          · exact hd c hc
  · rcases Memory.mem_insert hc with rfl | hc
    · exact hn
    · exact hm.2 c hc

/-- A one-byte write keeps the canonical form. -/
theorem Memory.write_wf {m : Memory} (hm : m.wf) (a : Addr) (v : Byte) : (m.write a v).wf :=
  Memory.insert_wf hm (by simpa [Config.memSize] using a.isLt) v

theorem Memory.nil_wf : Memory.wf [] := ⟨.nil, by simp⟩

theorem Memory.find_of_lt_head {c : Host.Cell} {cs : List Host.Cell}
    (hp : (c :: cs).Pairwise (fun x y => x.1 < y.1)) {n : Nat} (hn : n ≤ c.1) : Memory.find cs n = none := by
  obtain ⟨hd, -⟩ := List.pairwise_cons.mp hp
  clear hp
  induction cs with
  | nil => rfl
  | cons e es ih =>
    have he := hd e (by simp)
    have : ¬ e.1 = n := by omega
    simp only [Memory.find, this, if_false]
    exact ih fun x hx => hd x (by simp [hx])

/-- Equal memories are equal lists: two canonical lists that hold the same byte, or none, at every
address are the same. -/
theorem Memory.eq_of_find_eq {m m' : Memory} (hm : m.wf) (hm' : m'.wf)
    (h : ∀ n, Memory.find m n = Memory.find m' n) : m = m' := by
  obtain ⟨hp, -⟩ := hm
  obtain ⟨hp', -⟩ := hm'
  induction m generalizing m' with
  | nil =>
    cases m' with
    | nil => rfl
    | cons d ds => simpa [Memory.find] using h d.1
  | cons c cs ih =>
    cases m' with
    | nil => simpa [Memory.find] using h c.1
    | cons d ds =>
      have hc : c.1 = d.1 := by
        rcases Nat.lt_trichotomy c.1 d.1 with hlt | heq | hgt
        · have h1 := h c.1
          rw [Memory.find, if_pos rfl, Memory.find, if_neg (by omega),
            Memory.find_of_lt_head hp' (by omega)] at h1
          exact absurd h1 (by simp)
        · exact heq
        · have h1 := h d.1
          rw [Memory.find, if_neg (by omega), Memory.find_of_lt_head hp (by omega), Memory.find,
            if_pos rfl] at h1
          exact absurd h1 (by simp)
      have hv : c.2 = d.2 := by
        have h1 := h c.1
        simpa [Memory.find, hc] using h1
      have hcd : c = d := Prod.ext hc hv
      subst hcd
      congr 1
      refine ih (fun n => ?_) (List.pairwise_cons.mp hp).2 (List.pairwise_cons.mp hp').2
      by_cases hn : c.1 = n
      · rw [Memory.find_of_lt_head hp (by omega), Memory.find_of_lt_head hp' (by omega)]
      · simpa [Memory.find, hn] using h n

/-! ## Runs of bytes -/

theorem wrapAddr_toNat_mod (a : Addr) (k : Nat) : (wrapAddr a k).toNat = (a.toNat + k) % Config.memSize := by
  simp only [wrapAddr, Config.memSize, BitVec.toNat_ofNat]
  omega

theorem wrapAddr_eq_iff (a : Addr) (j k : Nat) : wrapAddr a j = wrapAddr a k ↔ j % 512 = k % 512 := by
  rw [← BitVec.toNat_inj, wrapAddr_toNat_mod, wrapAddr_toNat_mod, Config.memSize]
  omega

/-- Any address is reached from any other within 512 steps of the counter. -/
theorem exists_wrapAddr (a x : Addr) : ∃ k, k < 512 ∧ wrapAddr a k = x := by
  have ha := a.isLt
  have hx := x.isLt
  refine ⟨(x.toNat + 512 - a.toNat) % 512, Nat.mod_lt _ (by decide), BitVec.eq_of_toNat_eq ?_⟩
  rw [wrapAddr_toNat_mod, Config.memSize]
  omega

theorem writeFrom_wf {m : Memory} (hm : m.wf) (a : Addr) (k : Nat) (p : List Byte) :
    (writeFrom m a k p).wf := by
  induction p generalizing m k with
  | nil => exact hm
  | cons b bs ih => exact ih (Memory.write_wf hm _ _) _

/-- A whole payload keeps the canonical form. -/
theorem writeRun_wf {m : Memory} (hm : m.wf) (a : Addr) (p : List Byte) : (writeRun m a p).wf :=
  writeFrom_wf hm a 0 p

/-- What a run leaves alone: every address its counter does not reach. -/
theorem writeFrom_find_outside (m : Memory) (a : Addr) (k : Nat) (p : List Byte) (n : Nat)
    (h : ∀ j, j < p.length → (wrapAddr a (k + j)).toNat ≠ n) :
    Memory.find (writeFrom m a k p) n = Memory.find m n := by
  induction p generalizing m k with
  | nil => rfl
  | cons b bs ih =>
    rw [writeFrom, ih _ _ fun j hj => by
      have := h (j + 1) (by simpa using hj)
      rwa [← Nat.add_assoc, Nat.add_right_comm] at this]
    exact Memory.find_insert_other _ _ (by simpa using (h 0 (by simp)).symm)

/-- What a run leaves at an address: the last byte its counter puts there. -/
theorem writeFrom_find_last (m : Memory) (a : Addr) (k : Nat) (p : List Byte) (i : Nat) (b : Byte)
    (hi : p[i]? = some b)
    (hlast : ∀ j, i < j → j < p.length → wrapAddr a (k + j) ≠ wrapAddr a (k + i)) :
    Memory.find (writeFrom m a k p) (wrapAddr a (k + i)).toNat = some b := by
  induction p generalizing m k i with
  | nil => simp at hi
  | cons c cs ih =>
    cases i with
    | zero =>
      obtain rfl : c = b := by simpa using hi
      rw [writeFrom, writeFrom_find_outside _ _ _ _ _ fun j hj => by
        have := hlast (j + 1) (by omega) (by simpa using hj)
        intro e
        refine this (BitVec.eq_of_toNat_eq ?_)
        rw [← e, Nat.add_assoc, Nat.add_comm j 1]]
      simp [Memory.write, Memory.find_insert_same]
    | succ i =>
      rw [writeFrom, show k + (i + 1) = k + 1 + i by omega]
      refine ih _ _ _ (by simpa using hi) fun j hj hj' => ?_
      have := hlast (j + 1) (by omega) (by simpa using hj')
      rwa [show k + (j + 1) = k + 1 + j by omega, show k + (i + 1) = k + 1 + i by omega] at this

/-- `writeRun` at an address the payload does not reach. -/
theorem writeRun_read_outside (m : Memory) (a : Addr) (p : List Byte) (x : Addr)
    (h : ∀ k, k < p.length → wrapAddr a k ≠ x) : (writeRun m a p).read x = m.read x := by
  have := writeFrom_find_outside m a 0 p x.toNat fun j hj e => by
    rw [Nat.zero_add] at e
    exact h j hj (BitVec.eq_of_toNat_eq e)
  simp [Memory.read, writeRun, this]

/-- `writeRun` at an address the payload reaches last with byte `k`. -/
theorem writeRun_read_last (m : Memory) (a : Addr) (p : List Byte) (k : Nat) (b : Byte) (hk : p[k]? = some b)
    (hlast : ∀ j, k < j → j < p.length → wrapAddr a j ≠ wrapAddr a k) :
    (writeRun m a p).read (wrapAddr a k) = b := by
  have := writeFrom_find_last m a 0 p k b hk (by simpa using hlast)
  rw [Nat.zero_add] at this
  simp [Memory.read, writeRun, this]

@[simp] theorem readRun_length (m : Memory) (a : Addr) (n : Nat) : (readRun m a n).length = n := by
  simp [readRun]

theorem readRun_getElem? (m : Memory) (a : Addr) (n k : Nat) (h : k < n) :
    (readRun m a n)[k]? = some (m.read (wrapAddr a k)) := by
  simp [readRun, h]

end Sys2Proof.Machine
end

