-- ==== Sys2Proof/Laws/PerInstr.lean ====
section
/-! SUPPORT. What holds of every instruction as syntax, one lemma per constructor: the family FrameShape says
that an instruction's frame begins with its word and has the length its format needs (R64, R68, R84). -/

namespace Sys2Proof.Laws

/-- The bytes a command needs: 2 for format H, 4 for HL, `4 + L` for HLP (R68). -/
def neededLength : Instr → Nat
  | .read _ _ => 4
  | .write _ payload => 4 + payload.length
  | .wren _ => 2
  | .wrdi _ => 2
  | .rdsr _ => 2
  | .wrsr _ => 2
  | .unassigned000 _ => 2
  | .unassigned111 _ => 2

namespace FrameShape

/-- The frame begins with the instruction's word and is as long as its format needs. -/
def Statement (i : Instr) : Prop :=
  (encode i).take 2 = header i.opcode i.addr ∧ (encode i).length = neededLength i

theorem read (a : Addr) (len : Len) : Statement (.read a len) := ⟨rfl, rfl⟩

theorem write (a : Addr) (payload : List Byte) : Statement (.write a payload) :=
  ⟨rfl, by simp [encode, header, lengthField, neededLength]; omega⟩

theorem wren (a : Addr) : Statement (.wren a) := ⟨rfl, rfl⟩

theorem wrdi (a : Addr) : Statement (.wrdi a) := ⟨rfl, rfl⟩

theorem rdsr (a : Addr) : Statement (.rdsr a) := ⟨rfl, rfl⟩

theorem wrsr (a : Addr) : Statement (.wrsr a) := ⟨rfl, rfl⟩

theorem unassigned000 (a : Addr) : Statement (.unassigned000 a) := ⟨rfl, rfl⟩

theorem unassigned111 (a : Addr) : Statement (.unassigned111 a) := ⟨rfl, rfl⟩

end FrameShape

end Sys2Proof.Laws
end

