-- ==== Sys2Proof/Laws/Step.lean ====
section
/-! SUPPORT. What a step can do, said once: its four shapes, the driver's three phases, and that all it does
to the block is what its one interface call does. -/

namespace Sys2Proof.Machine

/-- The four shapes of a step. -/
theorem step_cases {s t : State} (h : step s = .next t) :
    (∃ j, s.driver.job = some j ∧ driverStep j s = .next t) ∨
    (s.driver.job = none ∧ s.requests = [] ∧ t = s) ∨
    (∃ c rest, s.driver.job = none ∧ s.requests = .call c :: rest ∧ runCall c (s.withRequests rest) = .next t) ∨
    (∃ op rest, s.driver.job = none ∧ s.requests = .driver op :: rest ∧
      startOp op (s.withRequests rest) = .next t) := by
  simp only [step, serve] at h
  cases hj : s.driver.job with
  | some j => simp only [hj] at h; exact .inl ⟨j, rfl, h⟩
  | none =>
    simp only [hj] at h
    cases hr : s.requests with
    | nil =>
      simp only [hr] at h
      injection h with h
      exact .inr (.inl ⟨rfl, rfl, h.symm⟩)
    | cons r rest =>
      cases r with
      | call c => simp only [hr] at h; exact .inr (.inr (.inl ⟨c, rest, rfl, rfl, h⟩))
      | driver op => simp only [hr] at h; exact .inr (.inr (.inr ⟨op, rest, rfl, rfl, h⟩))

theorem step_of_job {s : State} {j : Job} (hj : s.driver.job = some j) : step s = driverStep j s := by
  simp [step, serve, hj]

theorem step_of_call {s : State} {c : Call} {rest : List Request} (hj : s.driver.job = none)
    (hr : s.requests = .call c :: rest) : step s = runCall c (s.withRequests rest) := by
  simp [step, serve, hj, hr]

theorem step_of_op {s : State} {op : DriverOp} {rest : List Request} (hj : s.driver.job = none)
    (hr : s.requests = .driver op :: rest) : step s = startOp op (s.withRequests rest) := by
  simp [step, serve, hj, hr]

/-- A run of `m + n` steps is `m` steps and then `n`. -/
theorem steps_add (m n : Nat) (s : State) : steps (m + n) s = andThen (steps m s) (steps n) := by
  induction m generalizing s with
  | zero => simp [steps, andThen]
  | succ m ih =>
    rw [Nat.add_right_comm]
    simp only [steps]
    cases step s with
    | next t => exact ih t
    | fault x => rfl
    | refused x => rfl

/-! ## The driver -/

theorem driverStep_select {j : Job} {s : State} (hp : j.phase = .select) : driverStep j s =
    .next (withJob { j with phase := .transfer } ((promote (s.withSel true)).withAnswer (.ok (.bytes [])))) := by
  simp [driverStep, hp, assertSelect_eq, andThen]

theorem driverStep_transfer {j : Job} {s t : State} (hp : j.phase = .transfer) :
    driverStep j s = .next t ↔ ∃ u, runCall (.transfer (some j.frame)) s = .next u ∧
      t = withJob { j with phase := .release } u := by
  simp only [driverStep, hp, andThen_eq_next]
  constructor <;> rintro ⟨u, hu, h⟩ <;> refine ⟨u, hu, ?_⟩
  · injection h with h; exact h.symm
  · rw [h]

theorem driverStep_release {j : Job} {s : State} (hp : j.phase = .release) : driverStep j s =
    pulseDone j s.answer ((s.withSel false).withAnswer (.ok (.bytes []))) := by
  simp [driverStep, hp, deassertSelect_eq, andThen]

/-- How a pulse ends when it does not stop: the operation returns, or its next pulse is due. -/
theorem pulseDone_cases {j : Job} {r : Option Answer} {s t : State} (h : pulseDone j r s = .next t) :
    (∃ a, t = finishOp a s) ∨ ∃ stage, t = withJob { j with stage := stage, phase := .select } s := by
  unfold pulseDone at h
  split at h
  · injection h with h; exact .inl ⟨_, h.symm⟩
  · unfold pulseOk at h
    split at h
    · unfold useResponse at h
      split at h
      · injection h with h; exact .inl ⟨_, h.symm⟩
      · injection h with h; exact .inl ⟨_, h.symm⟩
      · injection h with h; exact .inl ⟨_, h.symm⟩
      · injection h with h; exact .inr ⟨_, h.symm⟩
      all_goals cases h
    · cases h
    · injection h with h; exact .inr ⟨_, h.symm⟩
    · injection h with h; exact .inr ⟨_, h.symm⟩
    · injection h with h; exact .inl ⟨_, h.symm⟩
  · cases h

/-- An operation that starts changes the driver only. -/
theorem startOp_next {op : DriverOp} {s t : State} (h : startOp op s = .next t) : t = s.withDriver t.driver := by
  cases op <;> simp only [startOp, validated, failOp, startJob, startWriteArray, finishOp] at h <;>
    repeat' split at h
  all_goals first
    | (injection h with h; subst h; rfl)
    | cases h

/-- All that a step does to the block, and to its answer, is what its one interface call does; a step that
makes no call leaves them alone. -/
theorem step_block {s t : State} (h : step s = .next t) :
    (s.nextCall = none ∧ t.answer = s.answer ∧ SameBlock s t) ∨
    (∃ c rs u, s.nextCall = some c ∧ runCall c (s.withRequests rs) = .next u ∧ t.answer = u.answer ∧
      SameBlock u t) := by
  obtain ⟨j, hj, h⟩ | ⟨hj, hr, rfl⟩ | ⟨c, rest, hj, hr, h⟩ | ⟨op, rest, hj, hr, h⟩ := step_cases h
  · right
    cases hp : j.phase with
    | select =>
      rw [driverStep_select hp] at h
      injection h with h
      subst h
      exact ⟨.assertSelect, s.requests, _, by simp [State.nextCall, hj, Job.call, hp], assertSelect_eq _, rfl,
        rfl, rfl, rfl, rfl⟩
    | transfer =>
      obtain ⟨u, hu, rfl⟩ := (driverStep_transfer hp).mp h
      exact ⟨.transfer (some j.frame), s.requests, u, by simp [State.nextCall, hj, Job.call, hp], hu, rfl,
        rfl, rfl, rfl, rfl⟩
    | release =>
      rw [driverStep_release hp] at h
      refine ⟨.deassertSelect, s.requests, _, by simp [State.nextCall, hj, Job.call, hp], deassertSelect_eq _, ?_⟩
      obtain ⟨a, rfl⟩ | ⟨stage, rfl⟩ := pulseDone_cases h <;> exact ⟨rfl, rfl, rfl, rfl, rfl⟩
  · exact .inl ⟨by simp [State.nextCall, hj, hr], rfl, rfl, rfl, rfl, rfl⟩
  · exact .inr ⟨c, rest, t, by simp [State.nextCall, hj, hr], h, rfl, rfl, rfl, rfl, rfl⟩
  · left
    rw [startOp_next h]
    exact ⟨by simp [State.nextCall, hj, hr], rfl, rfl, rfl, rfl, rfl⟩

end Sys2Proof.Machine
end

