-- ==== Sys2Proof/Tests/Slice0.lean ====
section
/-! SUPPORT. Small tests, each with its expected result taken from the spec's worked examples
(spec/95_test_vectors.md, cited by its vector or program row), and one witness for each statement of
Certificates/Slice0/Obligations.lean that has hypotheses. -/

namespace Sys2Proof.Machine.Tests

/-! ## Helpers -/

/-- A block with these latches, select asserted, and this memory. -/
def block (wi we : Bool) (mem : Memory) : State := { State.reset with sel := true, wi := wi, we := we, mem := mem }

/-- The same, with these requests. -/
def asking (wi we : Bool) (mem : Memory) (rs : List Request) : State := { block wi we mem with requests := rs }

/-- A transfer of these bytes. -/
def xfer (f : Frame) : Request := .call (.transfer (some f))

/-- One transfer of these bytes, from that block. -/
def run1 (f : Frame) (s : State) : Result := step { s with requests := [xfer f] }

/-- The state after a result, where there is one. -/
def after : Result → Option State
  | .next s => some s
  | .fault _ => none
  | .refused _ => none

/-- `(sel, wi, we)` after a result. -/
def latches (r : Result) : Option (Bool × Bool × Bool) := (after r).map fun s => (s.sel, s.wi, s.we)

/-- The answer of the call a result ends. -/
def answered (r : Result) : Option Answer := (after r).bind fun s => s.answer

/-- The bytes written since construction, after a result. -/
def memory (r : Result) : Option Memory := (after r).map fun s => s.mem

/-- The host driver at the start of an operation, in a block with these latches. -/
def driving (wi we : Bool) (mem : Memory) (op : DriverOp) : State := asking wi we mem [.driver op]

/-- A block whose driver is at this job, the last transfer having answered this. -/
def midway (sel wi we : Bool) (answer : Option Answer) (j : Job) : State :=
  { State.reset with sel := sel, wi := wi, we := we, answer := answer,
                     driver := { isWorking := true, job := some j, result := none } }

/-! ## Well-formedness: a payload longer than the length field can say is refused -/

theorem test_wellFormed_refuses_long_payload :
    (Instr.write 0 (List.replicate 65536 0)).wellFormed = false := by
  simp only [Instr.wellFormed, List.length_replicate]
  decide

theorem test_wellFormed_accepts_longest_payload :
    (Instr.write 0 (List.replicate 65535 0)).wellFormed = true := by
  simp only [Instr.wellFormed, List.length_replicate]
  decide

/-! ## Decoding: words written out from `0000aaaaaaaaaooo` (30_encoding.md R60, 95 codec table) -/

theorem test_decode_read : decode [0b00111011, 0b00000101, 0x01, 0x00] = .instr (.read 0x0A7 1) := by decide
theorem test_decode_write :
    decode [0b10000010, 0b00000000, 0x03, 0x00, 1, 2, 3] = .instr (.write 0x010 [1, 2, 3]) := by decide
theorem test_decode_wren : decode [0b11111110, 0b00001111] = .instr (.wren 0x1FF) := by decide
theorem test_decode_wrdi : decode [0b11111100, 0b00001111] = .instr (.wrdi 0x1FF) := by decide
theorem test_decode_rdsr : decode [0b00111101, 0b00000101] = .instr (.rdsr 0x0A7) := by decide
theorem test_decode_wrsr : decode [0b11111001, 0b00001111] = .instr (.wrsr 0x1FF) := by decide
theorem test_decode_unassigned000 : decode [0b11111000, 0b11111111] = .instr (.unassigned000 0x1FF) := by decide
theorem test_decode_unassigned111 : decode [0b00000111, 0b00000000] = .instr (.unassigned111 0x000) := by decide

/-- V54: bits 15..12 set, decoded as READ 0x0A7. -/
theorem test_decode_ignores_reserved_bits :
    decode [0x3B, 0xF5, 0x01, 0x00] = .instr (.read 0x0A7 1) := by decide

/-- V1, V3, V4, V7. -/
theorem test_decodeWord :
    decodeWord 0x053B = (3, 0x0A7) ∧ decodeWord 0xFFFF = (7, 0x1FF) ∧ decodeWord 0 = (0, 0) ∧
      decodeWord 0xFFF8 = (0, 0x1FF) := by decide

/-- The codec table of 95: READ 0x1FE and WRITE 0x020, as frame bytes. -/
theorem test_encode : encode (.read 0x1FE 4) = [0xF3, 0x0F, 0x04, 0x00] ∧
    encode (.write 0x020 [0x11]) = [0x02, 0x01, 0x01, 0x00, 0x11] ∧ encode (.wren 0) = [0x06, 0x00] ∧
    encode (.wrdi 0) = [0x04, 0x00] := by decide

/-- The opcode table's words, as the host asks for them: each decodes to its row. -/
theorem test_decodeTableWord : (List.range 8).map (decodeTableWord 16) =
    [some (.unassigned000 0), some (.wrsr 0), some (.write 0 []), some (.read 0 0), some (.wrdi 0),
      some (.rdsr 0), some (.wren 0), some (.unassigned111 0)] := by decide

/-- Each of them runs as the first step after reset. -/
theorem test_withFetchWord : ((List.range 8).map fun w => answered (step (State.reset.withFetchWord 16 w))) =
    [some (.err .protocolViolation), some (.err .protocolViolation),
      some (.ok (.bytes [])), some (.ok (.bytes [])), some (.ok (.bytes [])),
      some (.err .protocolViolation), some (.ok (.bytes [])),
      some (.err .protocolViolation)] := by decide

/-! ## Commands -/

/-- V51, by four listed bytes: READ 0x1FE, L = 4 wraps at 511. -/
theorem test_read_wraps :
    answered (run1 [0xF3, 0x0F, 0x04, 0x00] (block false false [(0, 0x00), (1, 0x01), (510, 0xFE), (511, 0xFF)])) =
      some (.ok (.bytes [0xFE, 0xFF, 0x00, 0x01])) := by decide

/-- V53: bytes past byte 3 of a READ are ignored. -/
theorem test_read_ignores_extra_bytes :
    answered (run1 [0x2B, 0x00, 0x02, 0x00, 0xDE, 0xAD] (block false false [(5, 0x05), (6, 0x06)])) =
      some (.ok (.bytes [0x05, 0x06])) := by decide

/-- V58: WRITE 0x1FF, L = 2 wraps, and lists its bytes in address order. -/
theorem test_write_wraps :
    memory (run1 [0xFA, 0x0F, 0x02, 0x00, 0x11, 0x22] (block false true [])) =
      some [(0, 0x22), (511, 0x11)] := by decide

/-- V18: a WRITE while PENDING changes no memory and goes to IDLE. -/
theorem test_write_rejected :
    (memory (run1 [0x2A, 0x00, 0x01, 0x00, 0x77] (block true false [(5, 0x11)])),
      latches (run1 [0x2A, 0x00, 0x01, 0x00, 0x77] (block true false [(5, 0x11)]))) =
      (some [(5, 0x11)], some (true, false, false)) := by decide

/-- V14 and V39d: WREN, 2 bytes, any address. -/
theorem test_wren : latches (run1 [0xFE, 0x0F] (block false false [])) = some (true, true, false) := by decide

/-- V15: WREN while ENABLED. -/
theorem test_wren_enabled : latches (run1 [0x06, 0x00] (block false true [])) = some (true, true, true) := by decide

/-- V16: WRDI from ENABLED_P. -/
theorem test_wrdi : latches (run1 [0x04, 0x00] (block true true [])) = some (true, false, false) := by decide

/-- V39 and V39a: RDSR and WRSR change no latch. -/
theorem test_rdsr_wrsr : (answered (run1 [0x05, 0x00] (block true true [])), latches (run1 [0x01, 0, 0, 0] (block true true []))) =
    (some (.err .protocolViolation), some (true, true, true)) := by decide

/-- V39c: FF FF. -/
theorem test_unassigned : answered (run1 [0xFF, 0xFF] (block false false [])) =
    some (.err .protocolViolation) := by decide

/-! ## Entry checks (V31, V32, V34, V36, V38) -/

theorem test_transfer_select_first :
    answered (runCall (.transfer none) State.reset) = some (.err .transportNotReady) := by decide
theorem test_transfer_null : answered (runCall (.transfer none) (block false false [])) =
    some (.err .protocolViolation) := by decide
theorem test_transfer_short : answered (run1 [0x03] (block false false [])) =
    some (.err .protocolViolation) := by decide
theorem test_transfer_no_length : answered (run1 [0x03, 0x00, 0x01] (block false false [])) =
    some (.err .protocolViolation) := by decide
theorem test_transfer_short_payload :
    (answered (run1 [0x02, 0x00, 0x03, 0x00, 0x01, 0x02] (block true false [])),
      latches (run1 [0x02, 0x00, 0x03, 0x00, 0x01, 0x02] (block true false []))) =
      (some (.err .protocolViolation), some (true, true, false)) := by decide

/-- The info column of V30 to V39d. -/
theorem test_failedCheck : failedCheck (some [0x03, 0x00, 0x01, 0x00]) State.reset = some .selectDeasserted ∧
    ([none, some [], some [0x03], some [0x03, 0x00], some [0x03, 0x00, 0x01], some [0x02, 0x00],
      some [0x02, 0x00, 0x03, 0x00, 0x01, 0x02], some [0x05, 0x00], some [0x01, 0x00, 0x00, 0x00],
      some [0x00, 0x00], some [0xFF, 0xFF], some [0xFE, 0x0F]].map fun f => failedCheck f (block true false [])) =
    [some .nullFrame, some .shortFrame, some .shortFrame, some .noLengthField, some .noLengthField,
      some .noLengthField, some .shortPayload, some .unsupportedOpcode, some .unsupportedOpcode,
      some .unknownOpcode, some .unknownOpcode, none] := by decide

/-! ## Select, debug port, codec calls -/

/-- V11 and V22: promotion, also on a repeated assert. -/
theorem test_assertSelect : latches (runCall .assertSelect (block true false [])) = some (true, false, true) := by decide
/-- V13: the pending WREN survives the deassert. -/
theorem test_deassertSelect :
    latches (runCall .deassertSelect (block true false [])) = some (false, true, false) := by decide
/-- The example of R175, with select deasserted and the latch clear. -/
theorem test_debugWrite : memory (runCall (.debugWrite 0xA7 0xAB) State.reset) = some [(0xA7, 0xAB)] := by decide
theorem test_debugRead : answered (runCall (.debugRead 0xA7) { State.reset with mem := [(0xA7, 0xAB)] }) =
    some (.ok (.byte 0xAB)) := by decide
/-- The examples of R80 and R81. -/
theorem test_codec_calls : (answered (runCall (.encode opREAD 0xA7) State.reset),
    answered (runCall (.decode 0xF53B) State.reset)) =
      (some (.ok (.word 0x053B)), some (.ok (.fields 3 0xA7))) := by decide

/-! ## The host driver -/

/-- S1: the byte writeBit writes, `(0<<7) | (0xAB & 0x7F) = 0x2B` and `(1<<7) | (0xAB & 0x7F) = 0xAB`. -/
theorem test_mergeTopBit : mergeTopBit 0 0xAB = 0x2B ∧ mergeTopBit 1 0xAB = 0xAB ∧ topBit 0xAB = 1 ∧ topBit 0x2B = 0 := by
  decide
/-- V43: stopped and out of range: the address is checked first. -/
theorem test_driver_checks_address_first :
    ((after (step { driving false false [] (.readByte 512) with driver := ⟨false, none, none⟩ })).bind
      fun s => s.driver.result) = some (.err .addressOutOfRange) := by decide
/-- R132: the driver's frames. -/
theorem test_driver_frames : readFrame 0xA7 1 = [0x3B, 0x05, 0x01, 0x00] ∧ wrenFrame = [6, 0, 0, 0] ∧
    wrdiFrame = [4, 0, 0, 0] ∧ writeFrame 0x1FE 4 [0xA1, 0xA2, 0xA3, 0xA4] =
      [0xF2, 0x0F, 0x04, 0x00, 0xA1, 0xA2, 0xA3, 0xA4] := by decide

/-! ## Witnesses: for each statement with hypotheses, states and operands that meet all of them

Each is named after its statement. -/

theorem witness_DecodingAnEncodedInstructionGivesItBack :
    (Instr.write 0x1FF (List.replicate 65535 0xA5)).wellFormed = true ∧ (Instr.read 0x1FF 65535).wellFormed = true :=
  ⟨by simp only [Instr.wellFormed, List.length_replicate]; decide, rfl⟩

theorem witness_FramesAreRejectedExactlyWhenTooShort :
    decode [0x03] = .reject .shortFrame ∧ decode [0x03, 0x00, 0x01] = .reject .noLengthField ∧
      decode [0x02, 0x00] = .reject .noLengthField ∧ decode [0x02, 0x00, 0x01, 0x00] = .reject .shortPayload ∧
      decode [0x02, 0x00, 0x00, 0x00] = .instr (.write 0 []) := by decide

theorem witness_DecodedInstructionHasTheWordsOpcodeAndAddress :
    decode (0xFA :: 0xFF :: [0x01, 0x00, 0x11]) = .instr (.write 0x1FF [0x11]) := by decide

theorem witness_LatchControllerFollowsItsTable :
    Call.event .assertSelect (block true false []) = some .sel ∧
    Call.event .deassertSelect State.reset = some .desel ∧
    Call.event (.transfer (some [0x06, 0x00])) (block false false []) = some .wren ∧
    Call.event (.transfer (some [0x04, 0x00])) (block false true []) = some .wrdi ∧
    Call.event (.transfer (some [0x02, 0x00, 0x01, 0x00, 0x77])) (block false true []) = some .write ∧
    Call.event (.transfer (some [0x03, 0x00, 0x00, 0x00])) (block true true []) = some .read ∧
    Call.event (.transfer none) State.reset = some .error ∧
    Call.event (.debugWrite 511 0) State.reset = some .debug := by decide

theorem witness_OnlySelectCallsMoveTheSelectLine :
    (∃ t, step { State.reset with requests := [.call .assertSelect] } = .next t ∧ t.sel ≠ false) ∧
    (∃ t, step (asking false false [] [.call .deassertSelect]) = .next t ∧ t.sel ≠ true) :=
  ⟨⟨_, rfl, by decide⟩, _, rfl, by decide⟩

theorem witness_WritesAreEnabledOnlyByAPromotion :
    ∃ t, step (asking true false [] [.call .assertSelect]) = .next t ∧ t.we = true := ⟨_, rfl, by decide⟩

theorem witness_WritesAreDisabledOnlyByWrdi :
    ∃ t, step (asking false true [] [xfer [0x04, 0x00]]) = .next t ∧ t.we = false := ⟨_, rfl, by decide⟩

theorem witness_AWrenArmsNoWriteInItsOwnPulse :
    (asking false false [] [xfer [0x06, 0x00], xfer [0x02, 0x01, 0x01, 0x00, 0x22]]).driver.job = none ∧
    (block false false []).sel = true ∧ (block false false []).we = false ∧
    decode [0x06, 0x00] = .instr (.wren 0) ∧
    decode [0x02, 0x01, 0x01, 0x00, 0x22] = .instr (.write 0x020 [0x22]) := by decide

theorem witness_WriteInitiatedHasFourWriters :
    (∃ t, step (asking true false [] [.call .assertSelect]) = .next t ∧ t.wi = false) ∧
    (∃ t, step (asking false false [] [xfer [0x06, 0x00]]) = .next t ∧ t.wi = true) ∧
    (∃ t, step (asking true true [] [xfer [0x04, 0x00]]) = .next t ∧ t.wi = false) ∧
    (∃ t, step (asking true false [] [xfer [0x02, 0x00, 0x00, 0x00]]) = .next t ∧ t.wi = false) :=
  ⟨⟨_, rfl, by decide⟩, ⟨_, rfl, by decide⟩, ⟨_, rfl, by decide⟩, _, rfl, by decide⟩

theorem witness_EnabledStatesCannotBeToldApart :
    EnabledAlike (block true true []) (block false true []) ∧ block true true [] ≠ block false true [] :=
  ⟨⟨rfl, rfl, rfl, rfl, rfl, rfl, by decide⟩, by decide⟩

theorem witness_StepMakesTheNextCall :
    (asking false false [] [.call (.debugRead 0)]).driver.job = none ∧
    (asking false false [] [.call (.debugRead 0)]).requests = .call (.debugRead 0) :: [] ∧
    State.reset.driver.job = none ∧ State.reset.requests = [] := by decide

theorem witness_StepRunsTheDecodedInstruction :
    (asking false true [] [xfer [0x2A, 0x00, 0x01, 0x00, 0x77]]).driver.job = none ∧
    (asking false true [] [xfer [0x2A, 0x00, 0x01, 0x00, 0x77]]).requests =
      .call (.transfer (some [0x2A, 0x00, 0x01, 0x00, 0x77])) :: [] ∧
    (asking false true [] [xfer [0x2A, 0x00, 0x01, 0x00, 0x77]]).sel = true ∧
    decode [0x2A, 0x00, 0x01, 0x00, 0x77] = .instr (.write 5 [0x77]) := by decide

theorem witness_TransferChecksRunInOrder :
    State.reset.sel = false ∧ (block false false []).sel = true ∧ ([0x03] : Frame).length < 2 ∧
    (decodeWord (le16 0x03 0x00)).1 = opREAD ∧ ([0x01] : List Byte).length < 2 ∧
    (decodeWord (le16 0x02 0x00)).1 = opWRITE ∧ ([0x01, 0x02] : List Byte).length < (le16 0x03 0x00).toNat := by decide

theorem witness_AnErrorChangesNoState :
    ∃ t, runCall (.transfer (some [0x05, 0x00])) (block true true [(511, 1)]) = .next t ∧
      t.answer = some (.err .protocolViolation) := ⟨_, rfl, by decide⟩

theorem witness_OnlyTransferRaisesAndOnlyTwoKinds :
    (∃ t, runCall (.transfer (some [0x06, 0x00])) State.reset = .next t ∧
      t.answer = some (.err .transportNotReady)) ∧
    (∃ t, runCall (.transfer none) (block false false []) = .next t ∧
      t.answer = some (.err .protocolViolation)) := ⟨⟨_, rfl, by decide⟩, _, rfl, by decide⟩

theorem witness_ReadReturnsWrappedBytesAndWritesNoState :
    0 < (513 : Len).toNat ∧ 0 + 512 < (513 : Len).toNat ∧ (decodeWord (le16 0xFB 0x0F)).1 = opREAD ∧
    State.reset.sel = false ∧ (block false false []).sel = true ∧ ([0x01] : List Byte).length < 2 := by decide

theorem witness_HonouredWriteStoresThePayloadInOrder :
    (block false true []).we = true ∧ ([0x11, 0x22] : List Byte)[1]? = some 0x22 ∧
    (∀ j, 1 < j → j < 2 → wrapAddr 511 j ≠ wrapAddr 511 1) ∧ (∀ k, k < 2 → wrapAddr 511 k ≠ 1) :=
  ⟨rfl, rfl, fun j h h' => by omega, by decide⟩

theorem witness_RejectedWriteOnlyDropsAPendingWren : (block true false []).we = false := rfl

theorem witness_LongWriteKeepsTheLastByteOfEachAddress :
    (block false true []).we = true ∧ 512 < (List.replicate 513 (0 : Byte)).length ∧ 511 < 512 :=
  ⟨rfl, by simp only [List.length_replicate]; decide, by decide⟩

theorem witness_RepeatingAnHonouredWriteChangesNothing :
    (block false true [(0, 1), (511, 2)]).mem.wf ∧ (block false true [(0, 1), (511, 2)]).we = true := by decide

theorem witness_ReadAfterWriteReturnsThePayload :
    (block false true []).we = true ∧ (List.replicate 512 (7 : Byte)).length ≤ 512 :=
  ⟨rfl, by simp only [List.length_replicate]; decide⟩

theorem witness_WrenSetsWriteInitiated :
    (block false false []).sel = true ∧ (decodeWord (le16 0xFE 0xFF)).1 = opWREN := by decide

theorem witness_WrdiClearsBothLatches :
    (block true true []).sel = true ∧ (decodeWord (le16 0xFC 0xFF)).1 = opWRDI := by decide

theorem witness_StatusCommandsAreProtocolViolations : (block true true []).sel = true ∧
    (decodeWord (le16 0x05 0x00)).1 = 0b101#3 ∧ (decodeWord (le16 0xF9 0x0F)).1 = 0b001#3 := by decide

theorem witness_UnassignedOpcodesAreProtocolViolations : (block true true []).sel = true ∧
    (decodeWord (le16 0x00 0x00)).1 = 0b000#3 ∧ (decodeWord (le16 0xFF 0xFF)).1 = 0b111#3 := by decide

theorem witness_CommandsKeepSelectHostAndUnaddressedMemory :
    ∃ t, exec (.write 511 [0x11, 0x22]) (block false true []) = .next t ∧
      ¬((block false true []).we = true ∧ StoresAt (.write 511 [0x11, 0x22]) 1) := by
  refine ⟨_, rfl, ?_⟩
  rintro ⟨-, a, p, h, k, hk, hx⟩
  cases h
  revert hx
  have : k = 0 ∨ k = 1 := by
    simp only [List.length_cons, List.length_nil] at hk
    omega
  rcases this with rfl | rfl <;> decide

theorem witness_MemoryChangesOnlyByHonouredWriteOrDebugWrite :
    (∃ t, step { State.reset with mem := [(511, 1)], requests := [.call (.debugWrite 511 2)] } = .next t ∧
      t.mem.read 511 ≠ Memory.read [(511, 1)] 511) ∧
    (∃ t, step (asking false true [(0, 1)] [xfer [0xFA, 0x0F, 0x02, 0x00, 0x11, 0x22]]) = .next t ∧
      t.mem.read 0 ≠ Memory.read [(0, 1)] 0) := ⟨⟨_, rfl, by decide⟩, _, rfl, by decide⟩

/-- A state that meets the invariant with nothing under way. -/
theorem invariant_of_no_job {s : State} (hw : s.mem.wf) (hj : s.driver.job = none) : Invariant s :=
  ⟨hw, fun j h => by rw [hj] at h; cases h⟩

/-- The invariant inside a WRITE pulse, at each of its three phases. -/
theorem witness_Invariant_in_a_pulse :
    Invariant (midway false true false none ⟨511, 1, .write [0x5A], .select⟩) ∧
    Invariant (midway true false true none ⟨511, 1, .write [0x5A], .transfer⟩) ∧
    Invariant (midway true false true (some (.ok (.bytes []))) ⟨511, 1, .write [0x5A], .release⟩) := by
  refine ⟨⟨by decide, fun j h => ?_⟩, ⟨by decide, fun j h => ?_⟩, ⟨by decide, fun j h => ?_⟩⟩ <;> cases h
  · exact ⟨rfl, fun _ _ => rfl⟩
  · exact ⟨rfl, rfl, fun _ _ => rfl⟩
  · exact ⟨rfl, rfl, rfl, rfl⟩

theorem witness_EveryStepKeepsTheInvariant :
    Invariant (asking false true [(0, 1)] [xfer [0xFA, 0x0F, 0x02, 0x00, 0x11, 0x22]]) ∧
    ∃ t, step (asking false true [(0, 1)] [xfer [0xFA, 0x0F, 0x02, 0x00, 0x11, 0x22]]) = .next t :=
  ⟨invariant_of_no_job (by decide) rfl, _, rfl⟩

theorem witness_NoStepStopsButShortDriverData :
    Invariant (driving false false [] (.writeByteArray 0 (some [1]) 2)) ∧
    step (driving false false [] (.writeByteArray 0 (some [1]) 2)) = .refused .dataShorterThanLength ∧
    Invariant State.reset ∧ step State.reset = .next State.reset :=
  ⟨invariant_of_no_job (by decide) rfl, rfl, invariant_of_no_job (by decide) rfl, rfl⟩

theorem witness_DriverValidatesBeforeAnyCall :
    (driving false false [] (.writeByte 512 0)).driver.job = none ∧
    (DriverOp.writeByte 512 0).address = some 512 ∧ 511 < 512 ∧ (DriverOp.readBit 511).address = some 511 ∧
    { driving false false [] (.readBit 511) with driver := ⟨false, none, none⟩ }.driver.isWorking = false := by decide

theorem witness_ArrayOperationsCheckTheirArguments :
    (driving false false [] (.writeByteArray 511 none 3)).driver.job = none ∧
    (driving false false [] (.writeByteArray 511 none 3)).driver.isWorking = true ∧
    (driving false false [] (.readByteArray 511 0)).requests = .driver (.readByteArray 511 0) :: [] ∧
    (driving false false [] (.writeByteArray 0 (some [1]) 0)).requests =
      .driver (.writeByteArray 0 (some [1]) 0) :: [] := by decide

theorem witness_StopAndResumeSetOnlyTheSoftSwitch :
    (driving true true [] .stop).driver.job = none ∧ (driving true true [] .stop).requests = .driver .stop :: [] ∧
    (driving true true [] .resume).requests = .driver .resume :: [] := by decide

theorem witness_APulseIsThreeCallsAndEndsDeasserted :
    (midway false true false none ⟨511, 1, .write [0x5A], .select⟩).driver.job =
      some ⟨511, 1, .write [0x5A], .select⟩ ∧
    Invariant (midway false true false none ⟨511, 1, .write [0x5A], .select⟩) ∧
    ∃ t, steps 3 (midway false true false none ⟨511, 1, .write [0x5A], .select⟩) = .next t :=
  ⟨rfl, witness_Invariant_in_a_pulse.1, _, rfl⟩

theorem witness_APulseIsThreeCallsAndEndsDeasserted_on_an_error :
    ∃ u v, runCall .assertSelect (midway false true false none ⟨511, 2, .write [0x5A], .select⟩) = .next u ∧
      runCall (.transfer (some (Job.frame ⟨511, 2, .write [0x5A], .select⟩))) u = .next v ∧
      v.answer = some (.err .protocolViolation) := ⟨_, _, rfl, rfl, rfl⟩

theorem witness_AFailedPulseAbortsTheOperation :
    (midway true true false (some (.err .transportNotReady)) ⟨0, 1, .wren [1], .release⟩).driver.job =
      some ⟨0, 1, .wren [1], .release⟩ ∧
    (midway true true false (some (.err .transportNotReady)) ⟨0, 1, .wren [1], .release⟩).answer =
      some (.err .transportNotReady) := by decide

theorem witness_AnOperationRunsBeforeTheNextRequest :
    (midway false true false none ⟨511, 1, .write [0x5A], .select⟩).driver.job =
      some ⟨511, 1, .write [0x5A], .select⟩ ∧
    ∃ t, step { midway false true false none ⟨511, 1, .write [0x5A], .select⟩ with requests := [.call .deassertSelect] } =
      .next t := ⟨rfl, _, rfl⟩

theorem witness_WriteByteIsHonouredFromAnyLatchState :
    (driving true true [(3, 3)] (.writeByte 511 0x5A)).driver.job = none ∧
    (driving true true [(3, 3)] (.writeByte 511 0x5A)).requests = .driver (.writeByte 511 0x5A) :: [] ∧
    (driving true true [(3, 3)] (.writeByte 511 0x5A)).driver.isWorking = true := by decide

theorem witness_WriteBitChangesOnlyBitSeven :
    (driving false false [(0xA7, 0xAB)] (.writeBit 0xA7 0)).driver.job = none ∧
    (driving false false [(0xA7, 0xAB)] (.writeBit 0xA7 0)).requests = .driver (.writeBit 0xA7 0) :: [] ∧
    (driving false false [(0xA7, 0xAB)] (.writeBit 0xA7 0)).driver.isWorking = true ∧ 6 < 7 := by decide

theorem witness_WriteByteArrayStoresItsDataWrapping :
    (driving false false [] (.writeByteArray 0x1FE (some [1, 2, 3]) 3)).requests =
      .driver (.writeByteArray 0x1FE (some [1, 2, 3]) 3) :: [] ∧
    (driving false false [] (.writeByteArray 0x1FE (some [1, 2, 3]) 3)).driver.job = none ∧
    (driving false false [] (.writeByteArray 0x1FE (some [1, 2, 3]) 3)).driver.isWorking = true ∧
    (3 : Len) ≠ 0 ∧ (3 : Len).toNat ≤ ([1, 2, 3] : List Byte).length ∧
    ([1, 2, 3] : List Byte)[2]? = some 3 ∧ (∀ k, k < (3 : Len).toNat → wrapAddr 0x1FE k ≠ 1) := by decide

theorem witness_DriverReadsReturnMemory :
    (driving true false [] (.readByteArray 511 65535)).requests = .driver (.readByteArray 511 65535) :: [] ∧
    (driving true false [] (.readByteArray 511 65535)).driver.job = none ∧
    (driving true false [] (.readByteArray 511 65535)).driver.isWorking = true ∧ (65535 : Len) ≠ 0 ∧
    (65534 : Nat) < (65535 : Len).toNat ∧
    (driving true false [] (.readBit 0)).requests = .driver (.readBit 0) :: [] ∧
    (driving true false [] (.readByte 511)).requests = .driver (.readByte 511) :: [] := by decide

theorem witness_WriteByteThenReadByteYieldsTheByte :
    (asking true true [] [.driver (.writeByte 511 0x5A), .driver (.readByte 511)]).driver.job = none ∧
    (asking true true [] [.driver (.writeByte 511 0x5A), .driver (.readByte 511)]).requests =
      .driver (.writeByte 511 0x5A) :: .driver (.readByte 511) :: [] ∧
    (asking true true [] [.driver (.writeByte 511 0x5A), .driver (.readByte 511)]).driver.isWorking = true := by decide

theorem witness_DriverOperationsReturnOnlyTheirOwnErrors :
    (Invariant (driving false false [] (.readByte 512)) ∧
      ∃ t, step (driving false false [] (.readByte 512)) = .next t ∧
        t.driver.result = some (.err .addressOutOfRange)) ∧
    (Invariant { State.reset with driver := ⟨true, none, some (.err .deviceStopped)⟩ } ∧
      ∃ t, step { State.reset with driver := ⟨true, none, some (.err .deviceStopped)⟩ } = .next t ∧
        t.driver.result = some (.err .deviceStopped)) :=
  ⟨⟨invariant_of_no_job (by decide) rfl, _, rfl, rfl⟩, invariant_of_no_job (by decide) rfl, _, rfl, rfl⟩

theorem witness_FailedChecksOfOneKindCannotBeToldApart :
    failedCheck none (block true true []) = some .nullFrame ∧
    failedCheck (some [0x05, 0x00]) (block true true []) = some .unsupportedOpcode ∧
    ErrorInfo.nullFrame.kind = ErrorInfo.unsupportedOpcode.kind ∧
    ∃ t, runCall (.transfer (some [0x05, 0x00])) (block true true []) = .next t :=
  ⟨rfl, by decide, rfl, _, rfl⟩

end Sys2Proof.Machine.Tests
end

section
/-! The reserved bits 15..12 of the word (R69). DECODE depends on the word modulo 4096 alone; clearing
bits 7..4 of byte 1 clears exactly bits 15..12 of the word; and ENCODE fills 12 bits. -/

namespace Sys2Proof

/-! ## Clearing the reserved bits -/

theorem clearReserved_toNat (w : Word) : (w &&& 0x0FFF#16).toNat = w.toNat % 4096 := by
  rw [BitVec.toNat_and]
  exact Nat.and_two_pow_sub_one_eq_mod w.toNat 12

theorem clearHighNibble_toNat (b : Byte) : (b &&& 0x0F#8).toNat = b.toNat % 16 := by
  rw [BitVec.toNat_and]
  exact Nat.and_two_pow_sub_one_eq_mod b.toNat 4

/-- The high nibble of byte 1 is bits 15..12 of the word (R61). -/
theorem le16_clearHighNibble (lo hi : Byte) : le16 lo (hi &&& 0x0F#8) = le16 lo hi &&& 0x0FFF#16 := by
  apply BitVec.eq_of_toNat_eq
  rw [le16_toNat, clearHighNibble_toNat, clearReserved_toNat, le16_toNat]
  omega

/-! ## The decoder ignores them -/

theorem decodeWord_eq_of_mod_eq {w w' : Word} (h : w.toNat % 4096 = w'.toNat % 4096) :
    decodeWord w = decodeWord w' := by
  apply Prod.ext <;> apply BitVec.eq_of_toNat_eq
  · rw [decodeWord_opcode_toNat, decodeWord_opcode_toNat]
    omega
  · rw [decodeWord_addr_toNat, decodeWord_addr_toNat]
    omega

theorem decodeWord_clearReserved (w : Word) : decodeWord (w &&& 0x0FFF#16) = decodeWord w :=
  decodeWord_eq_of_mod_eq (by rw [clearReserved_toNat, Nat.mod_mod])

theorem decode_clearHighNibble (b0 b1 : Byte) (rest : List Byte) :
    decode (b0 :: (b1 &&& 0x0F#8) :: rest) = decode (b0 :: b1 :: rest) := by
  rw [decode_cons_cons, decode_cons_cons, le16_clearHighNibble, decodeWord_clearReserved]

/-! ## The encoder writes them 0 -/

theorem encodeWord_toNat (op : Opcode) (a : Addr) : (encodeWord op a).toNat = op.toNat + 8 * a.toNat := by
  have hop := op.isLt
  have ha := a.isLt
  simp only [encodeWord, BitVec.toNat_or, BitVec.toNat_setWidth, BitVec.toNat_shiftLeft]
  rw [Nat.mod_eq_of_lt (by omega : op.toNat < 2 ^ 16), Nat.mod_eq_of_lt (by omega : a.toNat < 2 ^ 16),
    Nat.mod_eq_of_lt (by rw [Nat.shiftLeft_eq]; omega), or_shiftLeft_eq_add _ _ _ hop]
  rfl

theorem encodeWord_lt (op : Opcode) (a : Addr) : (encodeWord op a).toNat < 4096 := by
  rw [encodeWord_toNat]
  omega

theorem encodeWord_reserved_eq_zero (op : Opcode) (a : Addr) : encodeWord op a >>> 12 = 0 := by
  apply BitVec.eq_of_toNat_eq
  rw [BitVec.toNat_ushiftRight, Nat.shiftRight_eq_div_pow]
  exact Nat.div_eq_of_lt (encodeWord_lt op a)

/-- Settles O5: clearing the high nibble of byte 1 is clearing the word's reserved bits, which DECODE, a
function of the word modulo 4096, does not see; and an encoded word is below 4096. -/
theorem reservedWordBitsAreIgnoredAndEncodedZero :
    Obligations.ReservedWordBitsAreIgnoredAndEncodedZero :=
  ⟨fun b0 b1 rest => (decode_clearHighNibble b0 b1 rest).symm, fun w => (decodeWord_clearReserved w).symm,
    encodeWord_reserved_eq_zero⟩

end Sys2Proof
end

section
/-! The word codec's round trip (R82) and the byte order of a frame (R84). Both word fields are read
through the sum `op + 8*a`; every frame is its header followed by its operands. -/

namespace Sys2Proof

/-! ## The word round trip -/

@[simp] theorem decodeWord_encodeWord (op : Opcode) (a : Addr) : decodeWord (encodeWord op a) = (op, a) := by
  have hop := op.isLt
  have ha := a.isLt
  have hopcode : (decodeWord (encodeWord op a)).1 = op := by
    apply BitVec.eq_of_toNat_eq
    rw [decodeWord_opcode_toNat, encodeWord_toNat]
    omega
  have haddr : (decodeWord (encodeWord op a)).2 = a := by
    apply BitVec.eq_of_toNat_eq
    rw [decodeWord_addr_toNat, encodeWord_toNat]
    omega
  exact Prod.ext hopcode haddr

/-- Settles O1: in the sum `op + 8*a` of a 3-bit `op` and a 9-bit `a`, `op` is the remainder by 8 and `a`
the quotient. -/
theorem wordRoundTripsThroughEncodeAndDecode : Obligations.WordRoundTripsThroughEncodeAndDecode :=
  decodeWord_encodeWord

/-! ## The frame's bytes -/

/-- The family FrameShape, for every instruction. -/
theorem frameShape (i : Instr) : Laws.FrameShape.Statement i :=
  match i with
  | .read a len => Laws.FrameShape.read a len
  | .write a payload => Laws.FrameShape.write a payload
  | .wren a => Laws.FrameShape.wren a
  | .wrdi a => Laws.FrameShape.wrdi a
  | .rdsr a => Laws.FrameShape.rdsr a
  | .wrsr a => Laws.FrameShape.wrsr a
  | .unassigned000 a => Laws.FrameShape.unassigned000 a
  | .unassigned111 a => Laws.FrameShape.unassigned111 a

theorem encode_eq_header_append (i : Instr) : encode i = header i.opcode i.addr ++ (encode i).drop 2 := by
  obtain ⟨htake, -⟩ := frameShape i
  rw [← htake, List.take_append_drop]

theorem encode_read_drop_two (a : Addr) (len : Len) : (encode (.read a len)).drop 2 = lengthField len := rfl

theorem encode_write_drop_two (a : Addr) (payload : List Byte) :
    (encode (.write a payload)).drop 2 = lengthField (BitVec.ofNat 16 payload.length) ++ payload := rfl

/-- Settles O6: the two bytes are the word's remainder and quotient by 256, every frame begins with its
header, and the length field and the payload are what follows it. -/
theorem frameCarriesWordAndLengthLowByteFirst : Obligations.FrameCarriesWordAndLengthLowByteFirst :=
  ⟨fun w => ⟨loByte_toNat w, hiByte_toNat w, le16_loByte_hiByte w⟩,
    fun i => ⟨(encode i).drop 2, encode_eq_header_append i⟩, encode_read_drop_two, encode_write_drop_two⟩

end Sys2Proof
end

section
/-! The commands (R104 to R106, R110): what each one does as a next state, and that a transfer of a frame
with its opcode is that command, or fails its check, whatever the address and the bytes past the word. -/

namespace Sys2Proof.Machine

/-! ## From a frame's opcode to its command -/

theorem decode_of_opcode {b0 b1 : Byte} {op : Opcode} (h : (decodeWord (le16 b0 b1)).1 = op)
    (rest : List Byte) : decode (b0 :: b1 :: rest) = decodeCommand op (decodeWord (le16 b0 b1)).2 rest := by
  rw [decode_cons_cons, h]

theorem failedCheck_of_decode {f : Frame} {i : Instr} {s : State} (hs : s.sel = true)
    (hd : decode f = .instr i) : failedCheck (some f) s = commandErrorInfo i := by
  simp [failedCheck, hs, hd]

/-! ## WRITE -/

theorem exec_write_of_we (a : Addr) (p : List Byte) {s : State} (hwe : s.we = true) :
    exec (.write a p) s = .next ((s.withMem (writeRun s.mem a p)).withAnswer (.ok (.bytes []))) := by
  simp [exec, execWrite, hwe, reply]

/-- Settles O27: the next state's memory is the payload's run over the old one, and a run leaves at each
address the last byte its counter puts there. -/
theorem honouredWriteStoresThePayloadInOrder : Obligations.HonouredWriteStoresThePayloadInOrder :=
  ⟨wrapAddr_toNat_mod, fun a p s hwe => ⟨_, exec_write_of_we a p hwe, rfl, writeRun_read_outside s.mem a p,
    writeRun_read_last s.mem a p⟩⟩

/-! ## WREN and WRDI -/

theorem exec_wren (a : Addr) (s : State) :
    exec (.wren a) s = .next { s with wi := true, answer := some (.ok (.bytes [])) } := rfl

theorem exec_wrdi (a : Addr) (s : State) :
    exec (.wrdi a) s = .next { s with wi := false, we := false, answer := some (.ok (.bytes [])) } := rfl

/-- Settles O32: a frame with the opcode of WREN decodes to it with any bytes past the word, and no
address enters its meaning. -/
theorem wrenSetsWriteInitiated : Obligations.WrenSetsWriteInitiated := by
  refine ⟨exec_wren, fun s b0 b1 rest hs hop => ?_⟩
  have hd := (decode_of_opcode hop rest).trans (decodeCommand_opWREN _ rest)
  rw [transfer_of_decode hs hd, exec_wren]

/-- Settles O33: a frame with the opcode of WRDI decodes to it with any bytes past the word, and no
address enters its meaning. -/
theorem wrdiClearsBothLatches : Obligations.WrdiClearsBothLatches := by
  refine ⟨exec_wrdi, fun s b0 b1 rest hs hop => ?_⟩
  have hd := (decode_of_opcode hop rest).trans (decodeCommand_opWRDI _ rest)
  rw [transfer_of_decode hs hd, exec_wrdi]

/-! ## The unassigned opcodes -/

theorem raise_unknownOpcode (s : State) :
    raise .unknownOpcode s = .next { s with answer := some (.err .protocolViolation) } := rfl

theorem failedCheck_unassigned {s : State} {b0 b1 : Byte} (hs : s.sel = true)
    (hop : (decodeWord (le16 b0 b1)).1 = opUnassigned000 ∨ (decodeWord (le16 b0 b1)).1 = opUnassigned111)
    (rest : List Byte) : failedCheck (some (b0 :: b1 :: rest)) s = some .unknownOpcode := by
  rcases hop with h000 | h111
  · exact failedCheck_of_decode hs
      ((decode_of_opcode h000 rest).trans (decodeCommand_opUnassigned000 _ rest))
  · exact failedCheck_of_decode hs
      ((decode_of_opcode h111 rest).trans (decodeCommand_opUnassigned111 _ rest))

/-- Settles O35: both opcodes fail the check UnknownOpcode, and a failed check is raised with no state
written. -/
theorem unassignedOpcodesAreProtocolViolations : Obligations.UnassignedOpcodesAreProtocolViolations := by
  refine ⟨fun a s => ⟨?_, ?_⟩, fun s b0 b1 rest hs hop => ?_⟩
  · rw [exec_of_errorInfo (i := .unassigned000 a) rfl, raise_unknownOpcode]
  · rw [exec_of_errorInfo (i := .unassigned111 a) rfl, raise_unknownOpcode]
  · have hcheck := failedCheck_unassigned hs hop rest
    exact ⟨(transfer_of_failedCheck hcheck).trans (raise_unknownOpcode s), hcheck⟩

end Sys2Proof.Machine
end

section
/-! The end of a driver's pulse whose transfer failed (R130, R133): select is deasserted, and the operation
returns the error where its next pulse would have been due. -/

namespace Sys2Proof.Machine

theorem pulseDone_err (j : Job) (k : ErrorKind) (s : State) :
    pulseDone j (some (.err k)) s = .next (finishOp (.err k) s) := rfl

theorem step_release_of_err {s : State} {j : Job} {k : ErrorKind} (hj : s.driver.job = some j)
    (hp : j.phase = .release) (ha : s.answer = some (.err k)) :
    step s = .next (finishOp (.err k) ((s.withSel false).withAnswer (.ok (.bytes [])))) := by
  rw [step_of_job hj, driverStep_release hp, ha, pulseDone_err]

/-- Settles O48: the step deasserts select whatever the transfer answered, and `finishOp` writes the driver's
job and result alone, so no pulse follows and no earlier one is undone. -/
theorem aFailedPulseAbortsTheOperation : Obligations.AFailedPulseAbortsTheOperation :=
  fun _ _ _ hj hp ha => step_release_of_err hj hp ha

end Sys2Proof.Machine
end

section
/-! The frame decoder read both ways: what it gives for each format's bytes, which frames it rejects and
under which name, and that a decoded command is the word's (R60 to R67, R80, R81, R101). -/

namespace Sys2Proof

/-! ## Past the header -/

theorem decodeRead_lengthField_append (a : Addr) (len : Len) (rest : List Byte) :
    decodeRead a (lengthField len ++ rest) = .instr (.read a len) := by
  simp [lengthField, decodeRead]

theorem decodeWrite_lengthField_append (a : Addr) (len : Len) (bytes : List Byte)
    (h : len.toNat ≤ bytes.length) :
    decodeWrite a (lengthField len ++ bytes) = .instr (.write a (bytes.take len.toNat)) := by
  simp [lengthField, decodeWrite, h]

theorem payloadLength_toNat {p : List Byte} (h : p.length ≤ Config.maxLen) :
    (BitVec.ofNat 16 p.length).toNat = p.length := by
  rw [Config.maxLen] at h
  rw [BitVec.toNat_ofNat]
  omega

/-- A WRITE frame whose length field says how long its payload is, and any bytes after it (R67). -/
theorem decodeWrite_payload_append (a : Addr) (p extra : List Byte) (h : p.length ≤ Config.maxLen) :
    decodeWrite a (lengthField (BitVec.ofNat 16 p.length) ++ (p ++ extra)) = .instr (.write a p) := by
  rw [decodeWrite_lengthField_append, payloadLength_toNat h, List.take_left]
  rw [payloadLength_toNat h, List.length_append]
  omega

/-! ## The round trip -/

theorem decode_encode_append (i : Instr) (extra : List Byte) (h : i.wellFormed = true) :
    decode (encode i ++ extra) = .instr i := by
  cases i with
  | read a len =>
    rw [encode, List.append_assoc, decode_header_append, decodeWord_encodeWord, decodeCommand_opREAD,
      decodeRead_lengthField_append]
  | write a p =>
    rw [encode, List.append_assoc, List.append_assoc, decode_header_append, decodeWord_encodeWord,
      decodeCommand_opWRITE, decodeWrite_payload_append a p extra (of_decide_eq_true h)]
  | wren a => rw [encode, decode_header_append, decodeWord_encodeWord, decodeCommand_opWREN]
  | wrdi a => rw [encode, decode_header_append, decodeWord_encodeWord, decodeCommand_opWRDI]
  | rdsr a => rw [encode, decode_header_append, decodeWord_encodeWord, decodeCommand_opRDSR]
  | wrsr a => rw [encode, decode_header_append, decodeWord_encodeWord, decodeCommand_opWRSR]
  | unassigned000 a =>
    rw [encode, decode_header_append, decodeWord_encodeWord, decodeCommand_opUnassigned000]
  | unassigned111 a =>
    rw [encode, decode_header_append, decodeWord_encodeWord, decodeCommand_opUnassigned111]

/-- Settles O7: by instruction, the header's word decodes to the row's opcode and address, and the operands
are what the row's format reads past it. -/
theorem decodingAnEncodedInstructionGivesItBack : Obligations.DecodingAnEncodedInstructionGivesItBack :=
  decode_encode_append

/-! ## Rejected frames -/

/-- The length checks of R101 past the word: which check a frame fails, for its opcode. -/
def FailsLengthCheck (op : Opcode) (rest : List Byte) : FrameError → Prop
  | .shortFrame => False
  | .noLengthField => (op = opREAD ∨ op = opWRITE) ∧ rest.length < 2
  | .shortPayload => op = opWRITE ∧ ∃ l0 l1 p, rest = l0 :: l1 :: p ∧ p.length < (le16 l0 l1).toNat

theorem decodeRead_eq_reject_iff (a : Addr) (rest : List Byte) (e : FrameError) :
    decodeRead a rest = .reject e ↔ FailsLengthCheck opREAD rest e := by
  have hne : opREAD ≠ opWRITE := by decide
  rcases rest with _ | ⟨l0, _ | ⟨l1, p⟩⟩ <;> cases e <;> simp [decodeRead, FailsLengthCheck, hne]

theorem decodeWrite_eq_reject_iff (a : Addr) (rest : List Byte) (e : FrameError) :
    decodeWrite a rest = .reject e ↔ FailsLengthCheck opWRITE rest e := by
  rcases rest with _ | ⟨l0, _ | ⟨l1, p⟩⟩
  · cases e <;> simp [decodeWrite, FailsLengthCheck]
  · cases e <;> simp [decodeWrite, FailsLengthCheck]
  · by_cases hp : p.length < (le16 l0 l1).toNat <;> cases e <;> simp [decodeWrite, FailsLengthCheck, hp]

theorem not_failsLengthCheck {op : Opcode} (hread : op ≠ opREAD) (hwrite : op ≠ opWRITE) (rest : List Byte)
    (e : FrameError) : ¬ FailsLengthCheck op rest e := by
  cases e <;> simp [FailsLengthCheck, hread, hwrite]

theorem decodeCommand_eq_reject_iff (op : Opcode) (a : Addr) (rest : List Byte) (e : FrameError) :
    decodeCommand op a rest = .reject e ↔ FailsLengthCheck op rest e := by
  by_cases hread : op = opREAD
  · rw [hread, decodeCommand_opREAD, decodeRead_eq_reject_iff]
  by_cases hwrite : op = opWRITE
  · rw [hwrite, decodeCommand_opWRITE, decodeWrite_eq_reject_iff]
  refine iff_of_false (fun h => ?_) (not_failsLengthCheck hread hwrite rest e)
  obtain rfl | rfl | rfl | rfl | rfl | rfl | rfl | rfl := opcode_cases op
  · exact hread rfl
  · exact hwrite rfl
  all_goals cases h

theorem decode_eq_shortFrame_iff (f : Frame) : decode f = .reject .shortFrame ↔ f.length < 2 := by
  rcases f with _ | ⟨b0, _ | ⟨b1, rest⟩⟩
  · simp [decode]
  · simp [decode]
  · rw [decode_cons_cons, decodeCommand_eq_reject_iff]
    simp [FailsLengthCheck]

theorem decode_eq_noLengthField_iff (b0 b1 : Byte) (rest : List Byte) :
    decode (b0 :: b1 :: rest) = .reject .noLengthField ↔
      ((decodeWord (le16 b0 b1)).1 = opREAD ∨ (decodeWord (le16 b0 b1)).1 = opWRITE) ∧ rest.length < 2 := by
  rw [decode_cons_cons, decodeCommand_eq_reject_iff, FailsLengthCheck]

theorem decode_eq_shortPayload_iff (b0 b1 l0 l1 : Byte) (p : List Byte) :
    decode (b0 :: b1 :: l0 :: l1 :: p) = .reject .shortPayload ↔
      (decodeWord (le16 b0 b1)).1 = opWRITE ∧ p.length < (le16 l0 l1).toNat := by
  rw [decode_cons_cons, decodeCommand_eq_reject_iff]
  simp [FailsLengthCheck]

/-- Settles O9: past the word a frame is rejected exactly when it fails a length check of its opcode, so
`shortFrame` is left to the frames without a word. -/
theorem framesAreRejectedExactlyWhenTooShort : Obligations.FramesAreRejectedExactlyWhenTooShort :=
  ⟨decode_eq_shortFrame_iff, decode_eq_noLengthField_iff, decode_eq_shortPayload_iff⟩

/-! ## Decoded commands -/

theorem decodeRead_eq_instr {a : Addr} {rest : List Byte} {i : Instr} (h : decodeRead a rest = .instr i) :
    ∃ len, i = .read a len := by
  rcases rest with _ | ⟨l0, _ | ⟨l1, p⟩⟩ <;> cases h
  exact ⟨_, rfl⟩

theorem decodeWrite_eq_instr {a : Addr} {rest : List Byte} {i : Instr} (h : decodeWrite a rest = .instr i) :
    ∃ p, i = .write a p ∧ p.length ≤ Config.maxLen := by
  rcases rest with _ | ⟨l0, _ | ⟨l1, bytes⟩⟩
  · cases h
  · cases h
  · rw [decodeWrite] at h
    split at h <;> cases h
    refine ⟨_, rfl, (List.length_take_le _ _).trans ?_⟩
    exact Nat.le_of_lt_succ (le16 l0 l1).isLt

/-- The command is selected by the opcode alone (R101). -/
theorem decodeCommand_eq_instr {op : Opcode} {a : Addr} {rest : List Byte} {i : Instr}
    (h : decodeCommand op a rest = .instr i) : i.wellFormed = true ∧ i.opcode = op ∧ i.addr = a := by
  obtain rfl | rfl | rfl | rfl | rfl | rfl | rfl | rfl := opcode_cases op
  · obtain ⟨len, rfl⟩ := decodeRead_eq_instr h
    exact ⟨rfl, rfl, rfl⟩
  · obtain ⟨p, rfl, hp⟩ := decodeWrite_eq_instr h
    exact ⟨decide_eq_true hp, rfl, rfl⟩
  all_goals
    cases h
    exact ⟨rfl, rfl, rfl⟩

/-- Settles O10: each arm of the selection answers its own row's command, with the address it was given and,
for a WRITE, no more payload than the length field says. -/
theorem decodedInstructionHasTheWordsOpcodeAndAddress :
    Obligations.DecodedInstructionHasTheWordsOpcodeAndAddress := by
  intro b0 b1 rest i h
  obtain ⟨hwf, hop, ha⟩ := decodeCommand_eq_instr ((decode_cons_cons b0 b1 rest).symm.trans h)
  exact ⟨hwf, Prod.ext hop ha⟩

/-! ## The word -/

/-- Settles O3: the two fields do not overlap, so their OR is their sum, below 4096. -/
theorem encodedWordIsOpcodePlusEightTimesAddress :
    Obligations.EncodedWordIsOpcodePlusEightTimesAddress :=
  fun op a => ⟨encodeWord_toNat op a, Nat.le_of_lt_succ (encodeWord_lt op a)⟩

theorem encodeWord_decodeWord_toNat (w : Word) :
    (encodeWord (decodeWord w).1 (decodeWord w).2).toNat = w.toNat % 4096 := by
  rw [encodeWord_toNat, decodeWord_opcode_toNat, decodeWord_addr_toNat]
  omega

theorem encodeWord_decodeWord (w : Word) :
    encodeWord (decodeWord w).1 (decodeWord w).2 = w &&& 0x0FFF#16 :=
  BitVec.eq_of_toNat_eq (by rw [encodeWord_decodeWord_toNat, clearReserved_toNat])

/-- Settles O2: re-encoding is the remainder modulo 4096, which is the word exactly when its quotient by
4096, its bits 15..12, is 0. -/
theorem reencodedWordKeepsItsLowTwelveBits : Obligations.ReencodedWordKeepsItsLowTwelveBits := by
  refine fun w => ⟨encodeWord_decodeWord w, ?_⟩
  rw [← BitVec.toNat_inj, ← BitVec.toNat_inj, encodeWord_decodeWord_toNat, BitVec.toNat_ushiftRight,
    Nat.shiftRight_eq_div_pow]
  show w.toNat % 4096 = w.toNat ↔ w.toNat / 4096 = 0
  omega

theorem lowBits_toNat (b : Byte) : (b &&& 0x7#8).toNat = b.toNat % 8 := by
  rw [BitVec.toNat_and]
  exact Nat.and_two_pow_sub_one_eq_mod b.toNat 3

/-- The opcode is in the low three bits of frame byte 0 (R61). -/
theorem opcode_of_frame_bytes (b0 b1 : Byte) :
    (decodeWord (le16 b0 b1)).1 = (b0 &&& 0x7#8).setWidth 3 := by
  apply BitVec.eq_of_toNat_eq
  rw [decodeWord_opcode_toNat, le16_toNat, BitVec.toNat_setWidth, lowBits_toNat]
  omega

/-- The address is the upper five bits of frame byte 0 below the lower four of byte 1 (R61). -/
theorem addr_of_frame_bytes (b0 b1 : Byte) : (decodeWord (le16 b0 b1)).2 =
    (b0 >>> 3).setWidth 9 ||| ((b1 &&& 0xF#8).setWidth 9 <<< 5) := by
  have h0 := b0.isLt
  have hlow : ((b0 >>> 3).setWidth 9).toNat = b0.toNat / 8 := by
    rw [BitVec.toNat_setWidth, BitVec.toNat_ushiftRight, Nat.shiftRight_eq_div_pow]
    omega
  have hhigh : ((b1 &&& 0xF#8).setWidth 9 <<< 5).toNat = (b1.toNat % 16) <<< 5 := by
    rw [BitVec.toNat_shiftLeft, BitVec.toNat_setWidth, clearHighNibble_toNat, Nat.shiftLeft_eq,
      Nat.shiftLeft_eq]
    omega
  apply BitVec.eq_of_toNat_eq
  rw [decodeWord_addr_toNat, le16_toNat, BitVec.toNat_or, hlow, hhigh, or_shiftLeft_eq_add _ _ _ (by omega)]
  omega

/-- Settles O4: both fields as naturals, from the sum `b0 + 256*b1`. -/
theorem opcodeAndAddressComeFromTheFirstTwoBytes :
    Obligations.OpcodeAndAddressComeFromTheFirstTwoBytes :=
  fun b0 b1 => ⟨opcode_of_frame_bytes b0 b1, addr_of_frame_bytes b0 b1⟩

/-- Settles O8: eight closed frames, each evaluated by the decoder. -/
theorem framesOfTheSpecDecodeAsWritten : Obligations.FramesOfTheSpecDecodeAsWritten := by
  unfold Obligations.FramesOfTheSpecDecodeAsWritten
  decide

end Sys2Proof
end

section
/-! The interface calls (R90, R91, R100 to R110, R160 to R165, R175): what each one does as a next state,
the checks of `transfer` in their order, and that a call answered an error has failed one of them and changed
nothing. -/

namespace Sys2Proof.Machine

/-! ## The checks of `transfer` -/

theorem failedCheck_of_deselected {s : State} (hs : s.sel = false) (frame : Option Frame) :
    failedCheck frame s = some .selectDeasserted := by
  simp [failedCheck, hs]

theorem failedCheck_none {s : State} (hs : s.sel = true) : failedCheck none s = some .nullFrame := by
  simp [failedCheck, hs]

theorem failedCheck_of_reject {s : State} {f : Frame} {e : FrameError} (hs : s.sel = true)
    (hd : decode f = .reject e) : failedCheck (some f) s = some (frameErrorInfo e) := by
  simp [failedCheck, hs, hd]

/-- A failed check is answered by its kind, and nothing but the answer changes (R164, R165). -/
theorem transfer_answers_kind {frame : Option Frame} {s : State} {info : ErrorInfo} {k : ErrorKind}
    (h : failedCheck frame s = some info) (hk : info.kind = k) :
    runCall (.transfer frame) s = .next (s.withAnswer (.err k)) ∧ failedCheck frame s = some info := by
  rw [transfer_of_failedCheck h, ← hk]
  exact ⟨rfl, h⟩

theorem transfer_of_deselected {s : State} (hs : s.sel = false) (frame : Option Frame) :
    runCall (.transfer frame) s = .next (s.withAnswer (.err .transportNotReady)) ∧
      failedCheck frame s = some .selectDeasserted :=
  transfer_answers_kind (failedCheck_of_deselected hs frame) rfl

theorem transfer_of_reject {s : State} {f : Frame} {e : FrameError} (hs : s.sel = true)
    (hd : decode f = .reject e) :
    runCall (.transfer (some f)) s = .next (s.withAnswer (.err .protocolViolation)) ∧
      failedCheck (some f) s = some (frameErrorInfo e) :=
  transfer_answers_kind (failedCheck_of_reject hs hd) (frameErrorInfo_kind e)

/-- Settles O23: each frame fails the check named, by the decoder's own rejections, and a failed check is
answered by its kind. -/
theorem transferChecksRunInOrder : Obligations.TransferChecksRunInOrder := by
  refine fun s => ⟨transfer_of_deselected, fun hs => ⟨?_, fun f hf => ?_, fun b0 b1 rest hop hlen => ?_,
    fun b0 b1 l0 l1 p hop hlen => ?_⟩⟩
  · exact transfer_answers_kind (failedCheck_none hs) rfl
  · exact transfer_of_reject hs ((decode_eq_shortFrame_iff f).mpr hf)
  · exact transfer_of_reject hs ((decode_eq_noLengthField_iff b0 b1 rest).mpr ⟨hop, hlen⟩)
  · exact transfer_of_reject hs ((decode_eq_shortPayload_iff b0 b1 l0 l1 p).mpr ⟨hop, hlen⟩)

/-- A transfer that fails no check is a command the block dispatches. -/
theorem failedCheck_eq_none {frame : Option Frame} {s : State} (h : failedCheck frame s = none) :
    s.sel = true ∧ ∃ f i, frame = some f ∧ decode f = .instr i ∧ commandErrorInfo i = none := by
  cases hs : s.sel with
  | false => simp [failedCheck_of_deselected hs] at h
  | true =>
    cases frame with
    | none => simp [failedCheck_none hs] at h
    | some f =>
      cases hd : decode f with
      | reject e => simp [failedCheck_of_reject hs hd] at h
      | instr i => exact ⟨rfl, f, i, rfl, hd, (failedCheck_of_decode hs hd).symm.trans h⟩

theorem commandErrorInfo_of_error {i : Instr} (h : commandEvent i = .error) : commandErrorInfo i ≠ none := by
  cases i <;> simp_all [commandEvent, commandErrorInfo]

/-- How a command answers: `ok(v)` if the block dispatches it, else the error of its check. -/
theorem exec_answer_cases {i : Instr} {s t : State} (h : exec i s = .next t) :
    (∃ v, t.answer = some (.ok v)) ∨
    (commandErrorInfo i ≠ none ∧ t = s.withAnswer (.err .protocolViolation)) := by
  obtain ⟨_, _, -, rfl⟩ | ⟨_, _, -, -, rfl⟩ | ⟨_, _, -, -, rfl⟩ | ⟨_, -, rfl⟩ | ⟨_, -, rfl⟩ | ⟨he, rfl⟩ :=
    exec_cases h
  · exact .inl ⟨_, rfl⟩
  · exact .inl ⟨_, rfl⟩
  · exact .inl ⟨_, rfl⟩
  · exact .inl ⟨_, rfl⟩
  · exact .inl ⟨_, rfl⟩
  · exact .inr ⟨commandErrorInfo_of_error he, rfl⟩

theorem transfer_answers_err_iff {frame : Option Frame} {s t : State}
    (h : runCall (.transfer frame) s = .next t) :
    (∃ k, t.answer = some (.err k)) ↔ ∃ info, failedCheck frame s = some info := by
  cases hc : failedCheck frame s with
  | some info =>
    rw [transfer_of_failedCheck hc, raise_eq_next] at h
    subst h
    exact iff_of_true ⟨_, rfl⟩ ⟨info, rfl⟩
  | none =>
    obtain ⟨hs, f, i, rfl, hd, hi⟩ := failedCheck_eq_none hc
    rw [transfer_of_decode hs hd] at h
    obtain ⟨v, hv⟩ | ⟨hi', -⟩ := exec_answer_cases h
    · simp [hv]
    · exact absurd hi hi'

/-- Settles O57: a failed check enters a transfer's result by its kind alone, and a transfer that fails none
is a dispatched command, answered `ok(v)`. -/
theorem failedChecksOfOneKindCannotBeToldApart : Obligations.FailedChecksOfOneKindCannotBeToldApart := by
  refine fun s => ⟨fun f g x y hf hg hk => ?_, fun f t h => transfer_answers_err_iff h⟩
  rw [transfer_of_failedCheck hf, transfer_of_failedCheck hg, raise, raise, hk]

/-! ## Errors -/

/-- Every call but `transfer` replies `ok(v)`. -/
theorem runCall_replies {c : Call} (hc : ∀ frame, c ≠ .transfer frame) (s : State) :
    ∃ v u, runCall c s = reply v u := by
  cases c with
  | transfer frame => exact absurd rfl (hc frame)
  | assertSelect => exact ⟨_, _, rfl⟩
  | deassertSelect => exact ⟨_, _, rfl⟩
  | encode op a => exact ⟨_, _, rfl⟩
  | decode w => exact ⟨_, _, rfl⟩
  | debugRead a => exact ⟨_, _, rfl⟩
  | debugWrite a v => exact ⟨_, _, rfl⟩

/-- How a call answers: `ok(v)`, or an error that `transfer` raises, by a kind that the select line settles,
and that changes nothing else. -/
theorem runCall_answer_cases {c : Call} {s t : State} (h : runCall c s = .next t) :
    (∃ v, t.answer = some (.ok v)) ∨
    (∃ frame, c = .transfer frame ∧ s.sel = false ∧ t = s.withAnswer (.err .transportNotReady)) ∨
    (∃ frame, c = .transfer frame ∧ s.sel = true ∧ t = s.withAnswer (.err .protocolViolation)) := by
  by_cases hc : ∀ frame, c ≠ .transfer frame
  · obtain ⟨v, u, hu⟩ := runCall_replies hc s
    rw [hu, reply_eq_next] at h
    exact .inl ⟨v, by rw [h, State.withAnswer_answer]⟩
  · push Not at hc
    obtain ⟨frame, rfl⟩ := hc
    obtain ⟨hs, ht⟩ | ⟨hs, -, ht⟩ | ⟨hs, -, i, -, -, h⟩ := transfer_cases h
    · exact .inr (.inl ⟨frame, rfl, hs, ht⟩)
    · exact .inr (.inr ⟨frame, rfl, hs, ht⟩)
    · exact (exec_answer_cases h).imp_right fun ⟨_, ht⟩ => .inr ⟨frame, rfl, hs, ht⟩

/-- A call answered `err(K)` is a transfer, `K` is settled by the select line, and nothing else changed. -/
theorem runCall_err {c : Call} {s t : State} {k : ErrorKind} (h : runCall c s = .next t)
    (ha : t.answer = some (.err k)) :
    (∃ frame, c = .transfer frame ∧
      ((k = .transportNotReady ∧ s.sel = false) ∨ (k = .protocolViolation ∧ s.sel = true))) ∧
    t = s.withAnswer (.err k) := by
  obtain ⟨v, hv⟩ | ⟨frame, hc, hs, rfl⟩ | ⟨frame, hc, hs, rfl⟩ := runCall_answer_cases h
  · rw [hv] at ha
    cases ha
  · cases ha
    exact ⟨⟨frame, hc, .inl ⟨rfl, hs⟩⟩, rfl⟩
  · cases ha
    exact ⟨⟨frame, hc, .inr ⟨rfl, hs⟩⟩, rfl⟩

/-- Settles O24: an error comes from a failed check of `transfer`, and those write the answer alone. -/
theorem anErrorChangesNoState : Obligations.AnErrorChangesNoState :=
  fun _ _ _ _ h ha => (runCall_err h ha).2

/-- Settles O25: every other call replies `ok(v)`, and in a transfer the select check comes first. -/
theorem onlyTransferRaisesAndOnlyTwoKinds : Obligations.OnlyTransferRaisesAndOnlyTwoKinds :=
  fun _ _ _ _ h ha => (runCall_err h ha).1

/-! ## RDSR and WRSR -/

theorem raise_unsupportedOpcode (s : State) :
    raise .unsupportedOpcode s = .next { s with answer := some (.err .protocolViolation) } := rfl

theorem failedCheck_status {s : State} {b0 b1 : Byte} (hs : s.sel = true)
    (hop : (decodeWord (le16 b0 b1)).1 = opRDSR ∨ (decodeWord (le16 b0 b1)).1 = opWRSR)
    (rest : List Byte) : failedCheck (some (b0 :: b1 :: rest)) s = some .unsupportedOpcode := by
  rcases hop with hrdsr | hwrsr
  · exact failedCheck_of_decode hs ((decode_of_opcode hrdsr rest).trans (decodeCommand_opRDSR _ rest))
  · exact failedCheck_of_decode hs ((decode_of_opcode hwrsr rest).trans (decodeCommand_opWRSR _ rest))

/-- Settles O34: both opcodes fail the check UnsupportedOpcode, and a failed check is raised with no state
written. -/
theorem statusCommandsAreProtocolViolations : Obligations.StatusCommandsAreProtocolViolations := by
  refine ⟨fun a s => ⟨?_, ?_⟩, fun s b0 b1 rest hs hop => ?_⟩
  · rw [exec_of_errorInfo (i := .rdsr a) rfl, raise_unsupportedOpcode]
  · rw [exec_of_errorInfo (i := .wrsr a) rfl, raise_unsupportedOpcode]
  · have hcheck := failedCheck_status hs hop rest
    exact ⟨(transfer_of_failedCheck hcheck).trans (raise_unsupportedOpcode s), hcheck⟩

/-! ## The select calls, the debug port and the codec calls -/

/-- Settles O11: promotion, field by field. -/
theorem assertSelectPromotesAPendingWren : Obligations.AssertSelectPromotesAPendingWren := by
  refine fun s => (assertSelect_eq s).trans (congrArg _ ?_)
  apply State.ext_fields <;> simp

/-- Settles O12: the call's meaning is this update. -/
theorem deassertSelectClearsOnlyTheSelectLine : Obligations.DeassertSelectClearsOnlyTheSelectLine :=
  deassertSelect_eq

theorem debugRead_eq (a : Addr) (s : State) :
    runCall (.debugRead a) s = .next (s.withAnswer (.ok (.byte (s.mem.read a)))) := rfl

theorem debugWrite_eq (a : Addr) (v : Byte) (s : State) :
    runCall (.debugWrite a v) s = .next ((s.withMem (s.mem.write a v)).withAnswer (.ok .unit)) := rfl

/-- Settles O38: the read-after-write laws of one byte. -/
theorem debugPortReachesOneByteAndNothingElse : Obligations.DebugPortReachesOneByteAndNothingElse :=
  fun a v s => ⟨debugRead_eq a s, _, debugWrite_eq a v s, rfl, Memory.read_write_same s.mem a v,
    fun _ hx => Memory.read_write_other s.mem v hx⟩

theorem encodeCall_eq (op : Opcode) (a : Addr) (s : State) :
    runCall (.encode op a) s = .next (s.withAnswer (.ok (.word (encodeWord op a)))) := rfl

theorem decodeCall_eq (w : Word) (s : State) : runCall (.decode w) s =
    .next (s.withAnswer (.ok (.fields (decodeWord w).1 (decodeWord w).2))) := rfl

/-- Settles O39: both calls reply with the codec's value. -/
theorem codecCallsArePure : Obligations.CodecCallsArePure :=
  fun op a w s => ⟨encodeCall_eq op a s, decodeCall_eq w s⟩

/-- Every call ends in a reply or an error, which is put in the answer. -/
theorem runCall_answer {c : Call} {s t : State} (h : runCall c s = .next t) : ∃ r, t.answer = some r := by
  obtain ⟨v, hv⟩ | ⟨_, _, _, rfl⟩ | ⟨_, _, _, rfl⟩ := runCall_answer_cases h
  · exact ⟨_, hv⟩
  · exact ⟨_, rfl⟩
  · exact ⟨_, rfl⟩

/-- Settles O20: no call stops, each writes the answer, and none looks at the host. -/
theorem everyInterfaceCallAnswers : Obligations.EveryInterfaceCallAnswers := by
  intro c s
  obtain ⟨t, h⟩ := runCall_next c s
  obtain ⟨r, hr⟩ := runCall_answer h
  exact ⟨t, r, h, hr, runCall_host h⟩

/-- Settles O56: the table of codes, read off. -/
theorem errorKindsAreNumberedInTaxonomyOrder : Obligations.ErrorKindsAreNumberedInTaxonomyOrder :=
  ⟨rfl, rfl, rfl, rfl, rfl, rfl⟩

end Sys2Proof.Machine
end

section
/-! READ, WRITE and memory (R47, R51 to R54, R102 to R104): what a run of bytes leaves at each address is the
last byte its counter puts there, and byte `k` is the last one exactly when fewer than 512 bytes follow it. -/

namespace Sys2Proof.Machine

/-! ## READ -/

theorem exec_read (a : Addr) (len : Len) (s : State) : exec (.read a len) s =
    .next (s.withAnswer (.ok (.bytes (readRun s.mem a len.toNat)))) := rfl

theorem wrapAddr_add_512 (a : Addr) (k : Nat) : wrapAddr a (k + 512) = wrapAddr a k := by
  rw [wrapAddr_eq_iff]
  omega

theorem readRun_getElem?_add_512 (m : Memory) (a : Addr) {n k : Nat} (h : k + 512 < n) :
    (readRun m a n)[k]? = (readRun m a n)[k + 512]? := by
  rw [readRun_getElem? m a n k (by omega), readRun_getElem? m a n (k + 512) h, wrapAddr_add_512]

theorem decode_read {b0 b1 : Byte} (h : (decodeWord (le16 b0 b1)).1 = opREAD) (l0 l1 : Byte)
    (extra : List Byte) : decode (b0 :: b1 :: l0 :: l1 :: extra) =
      .instr (.read (decodeWord (le16 b0 b1)).2 (le16 l0 l1)) :=
  decode_of_opcode h _

/-- Settles O26: byte `k` of the answer is memory at the wrapped address, which has period 512; and a frame
with the opcode of READ fails the select or the length check, or decodes to READ with any bytes past it. -/
theorem readReturnsWrappedBytesAndWritesNoState : Obligations.ReadReturnsWrappedBytesAndWritesNoState := by
  refine ⟨fun a len s => ⟨_, exec_read a len s, readRun_length _ _ _, readRun_getElem? s.mem a _,
    fun k => readRun_getElem?_add_512 s.mem a⟩, fun s b0 b1 rest hop => ⟨fun hs => ?_, fun hs hlen => ?_,
    fun hs l0 l1 extra hrest => ?_⟩⟩
  · exact transfer_of_deselected hs _
  · exact transfer_of_reject hs ((decode_eq_noLengthField_iff b0 b1 rest).mpr ⟨.inl hop, hlen⟩)
  · rw [hrest, transfer_of_decode hs (decode_read hop l0 l1 extra)]

/-! ## WRITE with `we` false -/

theorem exec_write_of_not_we (a : Addr) (p : List Byte) {s : State} (hwe : s.we = false) :
    exec (.write a p) s = .next { s with wi := false, answer := some (.ok (.bytes [])) } := by
  simp [exec, execWrite, hwe, reply, dropPending, State.withWi, State.withAnswer]

/-- Settles O28: the branch of WRITE that does not look at the payload. -/
theorem rejectedWriteOnlyDropsAPendingWren : Obligations.RejectedWriteOnlyDropsAPendingWren :=
  fun a p _ hwe => exec_write_of_not_we a p hwe

/-! ## The last byte sent to an address -/

/-- Among `n` indices, the last one that is `k` modulo 512. -/
theorem exists_last_index {k n : Nat} (h : k < n) : ∃ i, i < n ∧ i % 512 = k % 512 ∧ n ≤ i + 512 := by
  refine ⟨k + 512 * ((n - 1 - k) / 512), ?_⟩
  omega

/-- Within 512 bytes of the payload's end no later byte goes to the same address. -/
theorem wrapAddr_ne_of_last {n k : Nat} (h : n ≤ k + 512) (a : Addr) (j : Nat) (hkj : k < j) (hj : j < n) :
    wrapAddr a j ≠ wrapAddr a k := by
  rw [Ne, wrapAddr_eq_iff]
  omega

theorem writeRun_find_of_last (m : Memory) (a : Addr) {p : List Byte} {k : Nat} {b : Byte}
    (hk : p[k]? = some b) (h : p.length ≤ k + 512) :
    Memory.find (writeRun m a p) (wrapAddr a k).toNat = some b := by
  have := writeFrom_find_last m a 0 p k b hk (by simpa using wrapAddr_ne_of_last h a)
  rwa [Nat.zero_add] at this

theorem writeRun_read_of_last (m : Memory) (a : Addr) {p : List Byte} {k : Nat} {b : Byte}
    (hk : p[k]? = some b) (h : p.length ≤ k + 512) : (writeRun m a p).read (wrapAddr a k) = b :=
  writeRun_read_last m a p k b hk (wrapAddr_ne_of_last h a)

/-- Every address a payload reaches has a last byte sent to it. -/
theorem exists_last_byte (a : Addr) {p : List Byte} {k : Nat} (h : k < p.length) :
    ∃ i b, i % 512 = k % 512 ∧ p[i]? = some b ∧ p.length ≤ i + 512 ∧ wrapAddr a i = wrapAddr a k := by
  obtain ⟨i, hi, hmod, hlast⟩ := exists_last_index h
  exact ⟨i, p[i], hmod, List.getElem?_eq_getElem hi, hlast, (wrapAddr_eq_iff a i k).mpr hmod⟩

/-- Settles O29: with over 512 bytes every `j` below 512 is an index, so its address has a last byte. -/
theorem longWriteKeepsTheLastByteOfEachAddress : Obligations.LongWriteKeepsTheLastByteOfEachAddress := by
  refine fun a p s hwe hlen => ⟨_, exec_write_of_we a p hwe, fun j hj => ?_⟩
  obtain ⟨i, b, hmod, hb, hlast, haddr⟩ := exists_last_byte a (k := j) (p := p) (by omega)
  refine ⟨i, b, by omega, hb, hlast, ?_⟩
  show (writeRun s.mem a p).read (wrapAddr a j) = b
  rw [← haddr]
  exact writeRun_read_of_last s.mem a hb hlast

/-! ## Writing twice, and reading back -/

theorem writeRun_find_outside (m : Memory) (a : Addr) (p : List Byte) (n : Nat)
    (h : ∀ k, k < p.length → (wrapAddr a k).toNat ≠ n) :
    Memory.find (writeRun m a p) n = Memory.find m n :=
  writeFrom_find_outside m a 0 p n (by simpa using h)

theorem writeRun_writeRun {m : Memory} (hm : m.wf) (a : Addr) (p : List Byte) :
    writeRun (writeRun m a p) a p = writeRun m a p := by
  have hwf := writeRun_wf hm a p
  refine Memory.eq_of_find_eq (writeRun_wf hwf a p) hwf fun n => ?_
  by_cases hreach : ∃ k, k < p.length ∧ (wrapAddr a k).toNat = n
  · obtain ⟨k, hk, rfl⟩ := hreach
    obtain ⟨i, b, -, hb, hlast, haddr⟩ := exists_last_byte a hk
    rw [← haddr, writeRun_find_of_last _ a hb hlast, writeRun_find_of_last _ a hb hlast]
  · exact writeRun_find_outside _ a p n fun k hk hn => hreach ⟨k, hk, hn⟩

/-- Settles O30: canonical memories that hold the same byte at every address are equal, and each address
holds the last byte sent to it after one run as after two. -/
theorem repeatingAnHonouredWriteChangesNothing : Obligations.RepeatingAnHonouredWriteChangesNothing := by
  intro a p s hwf hwe
  have hw := exec_write_of_we a p hwe
  refine ⟨_, hw, (exec_write_of_we a p (by exact hwe)).trans (congrArg _ ?_)⟩
  apply State.ext_fields <;> simp [writeRun_writeRun hwf]

/-- Up to 512 bytes go to addresses of their own. -/
theorem readRun_writeRun (m : Memory) (a : Addr) {p : List Byte} (h : p.length ≤ 512) :
    readRun (writeRun m a p) a p.length = p := by
  apply List.ext_getElem?
  intro k
  by_cases hk : k < p.length
  · rw [readRun_getElem? _ a _ k hk,
      writeRun_read_of_last m a (List.getElem?_eq_getElem hk) (by omega), List.getElem?_eq_getElem hk]
  · rw [List.getElem?_eq_none (by simpa using hk), List.getElem?_eq_none (by simpa using hk)]

/-- Settles O31: the length field holds the payload's length, and each byte is read where it was written. -/
theorem readAfterWriteReturnsThePayload : Obligations.ReadAfterWriteReturnsThePayload := by
  refine fun a p s hwe hlen => ⟨_, exec_write_of_we a p hwe, ?_⟩
  have hfits : p.length ≤ Config.maxLen := hlen.trans (by decide)
  rw [exec_read, payloadLength_toNat hfits, State.withAnswer_mem, State.withMem_mem,
    readRun_writeRun s.mem a hlen]

end Sys2Proof.Machine
end

section
/-! What a call and a step do to the block (R20 to R24, R90 to R97): every change of select, latches or
memory, with the call that makes it. The claims about who writes which field are read off it. -/

namespace Sys2Proof.Machine

/-! ## The same block -/

theorem SameBlock.refl (s : State) : SameBlock s s := ⟨rfl, rfl, rfl, rfl⟩

theorem SameBlock.sel {s t : State} (h : SameBlock s t) : t.sel = s.sel := h.1

theorem SameBlock.wi {s t : State} (h : SameBlock s t) : t.wi = s.wi := h.2.1

theorem SameBlock.we {s t : State} (h : SameBlock s t) : t.we = s.we := h.2.2.1

theorem SameBlock.mem {s t : State} (h : SameBlock s t) : t.mem = s.mem := h.2.2.2

theorem SameBlock.trans {s t u : State} (h : SameBlock s t) (h' : SameBlock t u) : SameBlock s u :=
  ⟨h'.sel.trans h.sel, h'.wi.trans h.wi, h'.we.trans h.we, h'.mem.trans h.mem⟩

/-! ## Commands -/

/-- Every change a command makes to the block. -/
inductive CommandChange (s t : State) : Instr → Prop
  | none (i : Instr) (h : SameBlock s t) : CommandChange s t i
  | store (a : Addr) (p : List Byte) (hwe : s.we = true) (h : SameBlock (s.withMem (writeRun s.mem a p)) t) :
      CommandChange s t (.write a p)
  | drop (a : Addr) (p : List Byte) (hwe : s.we = false) (h : SameBlock (dropPending s) t) :
      CommandChange s t (.write a p)
  | arm (a : Addr) (h : SameBlock (arm s) t) : CommandChange s t (.wren a)
  | disarm (a : Addr) (h : SameBlock (disarm s) t) : CommandChange s t (.wrdi a)

theorem exec_change {i : Instr} {s t : State} (h : exec i s = .next t) : CommandChange s t i := by
  obtain ⟨a, len, rfl, rfl⟩ | ⟨a, p, rfl, hwe, rfl⟩ | ⟨a, p, rfl, hwe, rfl⟩ | ⟨a, rfl, rfl⟩ | ⟨a, rfl, rfl⟩ |
    ⟨-, rfl⟩ := exec_cases h
  · exact .none _ (.refl s)
  · exact .store a p hwe (.refl _)
  · exact .drop a p hwe (.refl _)
  · exact .arm a (.refl _)
  · exact .disarm a (.refl _)
  · exact .none _ (.refl s)

theorem CommandChange.trans {s t u : State} {i : Instr} (h : CommandChange s t i) (h' : SameBlock t u) :
    CommandChange s u i := by
  cases h with
  | none _ h => exact .none _ (h.trans h')
  | store a p hwe h => exact .store a p hwe (h.trans h')
  | drop a p hwe h => exact .drop a p hwe (h.trans h')
  | arm a h => exact .arm a (h.trans h')
  | disarm a h => exact .disarm a (h.trans h')

theorem CommandChange.of_withRequests {s t : State} {rs : List Request} {i : Instr}
    (h : CommandChange (s.withRequests rs) t i) : CommandChange s t i := by
  cases h with
  | none _ h => exact .none _ h
  | store a p hwe h => exact .store a p hwe h
  | drop a p hwe h => exact .drop a p hwe h
  | arm a h => exact .arm a h
  | disarm a h => exact .disarm a h

/-- A command changes a byte only by an honoured WRITE that stores to it. -/
theorem CommandChange.storesAt {s t : State} {i : Instr} (h : CommandChange s t i) {x : Addr}
    (hx : t.mem.read x ≠ s.mem.read x) : s.we = true ∧ StoresAt i x := by
  cases h with
  | none _ h => exact absurd (by rw [h.mem]) hx
  | store a p hwe h =>
    refine ⟨hwe, a, p, rfl, ?_⟩
    by_contra hreach
    refine hx ?_
    rw [h.mem, State.withMem_mem]
    exact writeRun_read_outside s.mem a p x fun k hk hk' => hreach ⟨k, hk, hk'⟩
  | drop a p hwe h => exact absurd (by rw [h.mem, dropPending_mem]) hx
  | arm a h => exact absurd (by rw [h.mem, arm_mem]) hx
  | disarm a h => exact absurd (by rw [h.mem, disarm_mem]) hx

theorem CommandChange.sel {s t : State} {i : Instr} (h : CommandChange s t i) : t.sel = s.sel := by
  cases h with
  | none _ h => exact h.sel
  | store a p hwe h => exact h.sel
  | drop a p hwe h => exact h.sel
  | arm a h => exact h.sel
  | disarm a h => exact h.sel

theorem exec_host {i : Instr} {s t : State} (h : exec i s = .next t) :
    t.requests = s.requests ∧ t.driver = s.driver := by
  obtain ⟨_, _, -, rfl⟩ | ⟨_, _, -, -, rfl⟩ | ⟨_, _, -, -, rfl⟩ | ⟨_, -, rfl⟩ | ⟨_, -, rfl⟩ | ⟨-, rfl⟩ :=
    exec_cases h <;> exact ⟨rfl, rfl⟩

/-- Settles O36: no command writes select or the host, and of memory it changes what an honoured WRITE
stores to. -/
theorem commandsKeepSelectHostAndUnaddressedMemory :
    Obligations.CommandsKeepSelectHostAndUnaddressedMemory := by
  intro i s t h
  obtain ⟨hrequests, hdriver⟩ := exec_host h
  have hchange := exec_change h
  exact ⟨hchange.sel, hrequests, hdriver, fun x hx => by_contra fun hne => hx (hchange.storesAt hne)⟩

/-! ## Calls and steps -/

/-- Every change a call, or a step that makes none, makes to the block. -/
inductive BlockChange (s t : State) : Option Call → Prop
  | none (c : Option Call) (h : SameBlock s t) : BlockChange s t c
  | assert (h : SameBlock (promote (s.withSel true)) t) : BlockChange s t (some .assertSelect)
  | deassert (h : SameBlock (s.withSel false) t) : BlockChange s t (some .deassertSelect)
  | command (f : Frame) (i : Instr) (hs : s.sel = true) (hd : decode f = .instr i)
      (h : CommandChange s t i) : BlockChange s t (some (.transfer (some f)))
  | debugWrite (x : Addr) (v : Byte) (h : SameBlock (s.withMem (s.mem.write x v)) t) :
      BlockChange s t (some (.debugWrite x v))

theorem runCall_change {c : Call} {s t : State} (h : runCall c s = .next t) : BlockChange s t (some c) := by
  cases c with
  | transfer frame =>
    obtain ⟨-, rfl⟩ | ⟨-, -, rfl⟩ | ⟨hs, f, i, rfl, hd, h⟩ := transfer_cases h
    · exact .none _ (.refl s)
    · exact .none _ (.refl s)
    · exact .command f i hs hd (exec_change h)
  | assertSelect =>
    obtain rfl := reply_eq_next.mp h
    exact .assert (.refl _)
  | deassertSelect =>
    obtain rfl := reply_eq_next.mp h
    exact .deassert (.refl _)
  | encode op a =>
    obtain rfl := reply_eq_next.mp h
    exact .none _ (.refl s)
  | decode w =>
    obtain rfl := reply_eq_next.mp h
    exact .none _ (.refl s)
  | debugRead a =>
    obtain rfl := reply_eq_next.mp h
    exact .none _ (.refl s)
  | debugWrite a v =>
    obtain rfl := reply_eq_next.mp h
    exact .debugWrite a v (.refl _)

theorem BlockChange.trans {s t u : State} {c : Option Call} (h : BlockChange s t c) (h' : SameBlock t u) :
    BlockChange s u c := by
  cases h with
  | none _ h => exact .none _ (h.trans h')
  | assert h => exact .assert (h.trans h')
  | deassert h => exact .deassert (h.trans h')
  | command f i hs hd h => exact .command f i hs hd (h.trans h')
  | debugWrite x v h => exact .debugWrite x v (h.trans h')

theorem BlockChange.of_withRequests {s t : State} {rs : List Request} {c : Option Call}
    (h : BlockChange (s.withRequests rs) t c) : BlockChange s t c := by
  cases h with
  | none _ h => exact .none _ h
  | assert h => exact .assert (by simpa [SameBlock] using h)
  | deassert h => exact .deassert h
  | command f i hs hd h => exact .command f i hs hd h.of_withRequests
  | debugWrite x v h => exact .debugWrite x v h

/-- All that a step does to the block, by the call it makes. -/
theorem step_change {s t : State} (h : step s = .next t) : BlockChange s t s.nextCall := by
  obtain ⟨-, -, hsame⟩ | ⟨c, rs, u, hc, hu, -, hsame⟩ := step_block h
  · exact .none _ hsame
  · rw [hc]
    exact ((runCall_change hu).trans hsame).of_withRequests

/-! ## The writers of each field -/

section Writers

variable {s t : State} {c : Option Call}

theorem BlockChange.sel_writers (h : BlockChange s t c) (hne : t.sel ≠ s.sel) :
    (c = some .assertSelect ∧ t.sel = true) ∨ (c = some .deassertSelect ∧ t.sel = false) := by
  cases h with
  | none _ h => exact absurd h.sel hne
  | assert h => exact .inl ⟨rfl, by simpa using h.sel⟩
  | deassert h => exact .inr ⟨rfl, h.sel⟩
  | command f i hs hd h => exact absurd h.sel hne
  | debugWrite x v h => exact absurd h.sel hne

theorem CommandChange.we_of_ne {i : Instr} (h : CommandChange s t i) (hne : t.we ≠ s.we) :
    t.we = false ∧ ∃ a, i = .wrdi a := by
  cases h with
  | none _ h => exact absurd h.we hne
  | store a p hwe h => exact absurd h.we hne
  | drop a p hwe h => exact absurd h.we hne
  | arm a h => exact absurd h.we hne
  | disarm a h => exact ⟨h.we, a, rfl⟩

theorem BlockChange.we_writers (h : BlockChange s t c) (hne : t.we ≠ s.we) :
    (t.we = true ∧ c = some .assertSelect ∧ s.wi = true ∧ t.sel = true) ∨
    (t.we = false ∧ s.sel = true ∧ ∃ f a, c = some (.transfer (some f)) ∧ decode f = .instr (.wrdi a)) := by
  cases h with
  | none _ h => exact absurd h.we hne
  | assert h =>
    have hwe : t.we = (s.we || s.wi) := by simpa using h.we
    have hsel : t.sel = true := by simpa using h.sel
    have hwi : s.wi = true := by
      cases hs : s.we with
      | true => simp [hwe, hs] at hne
      | false => simpa [hwe, hs] using hne
    exact .inl ⟨by simp [hwe, hwi], rfl, hwi, hsel⟩
  | deassert h => exact absurd h.we hne
  | command f i hs hd h =>
    obtain ⟨hwe, a, rfl⟩ := h.we_of_ne hne
    exact .inr ⟨hwe, hs, f, a, rfl, hd⟩
  | debugWrite x v h => exact absurd h.we hne

theorem CommandChange.wi_writers {i : Instr} (h : CommandChange s t i) (hne : t.wi ≠ s.wi) :
    (t.wi = true ∧ ∃ a, i = .wren a) ∨ (t.wi = false ∧ ∃ a, i = .wrdi a) ∨
      (t.wi = false ∧ s.we = false ∧ ∃ a p, i = .write a p) := by
  cases h with
  | none _ h => exact absurd h.wi hne
  | store a p hwe h => exact absurd h.wi hne
  | drop a p hwe h => exact .inr (.inr ⟨h.wi, hwe, a, p, rfl⟩)
  | arm a h => exact .inl ⟨h.wi, a, rfl⟩
  | disarm a h => exact .inr (.inl ⟨h.wi, a, rfl⟩)

theorem BlockChange.wi_writers (h : BlockChange s t c) (hne : t.wi ≠ s.wi) :
    (t.wi = false ∧ t.we = true ∧ c = some .assertSelect) ∨
    (s.sel = true ∧ ∃ f i, c = some (.transfer (some f)) ∧ decode f = .instr i ∧
      ((t.wi = true ∧ ∃ a, i = .wren a) ∨ (t.wi = false ∧ ∃ a, i = .wrdi a) ∨
        (t.wi = false ∧ s.we = false ∧ ∃ a p, i = .write a p))) := by
  cases h with
  | none _ h => exact absurd h.wi hne
  | assert h =>
    have hwi : t.wi = false := by simpa using h.wi
    have hwe : t.we = (s.we || s.wi) := by simpa using h.we
    have hpending : s.wi = true := by simpa [hwi] using hne
    exact .inl ⟨hwi, by simp [hwe, hpending], rfl⟩
  | deassert h => exact absurd h.wi hne
  | command f i hs hd h => exact .inr ⟨hs, f, i, rfl, hd, h.wi_writers hne⟩
  | debugWrite x v h => exact absurd h.wi hne

theorem BlockChange.mem_writers (h : BlockChange s t c) {x : Addr} (hx : t.mem.read x ≠ s.mem.read x) :
    (∃ v, c = some (.debugWrite x v)) ∨
    (s.sel = true ∧ s.we = true ∧ ∃ f i, c = some (.transfer (some f)) ∧ decode f = .instr i ∧
      StoresAt i x) := by
  cases h with
  | none _ h => exact absurd (by rw [h.mem]) hx
  | assert h => exact absurd (by rw [h.mem, promote_mem, State.withSel_mem]) hx
  | deassert h => exact absurd (by rw [h.mem, State.withSel_mem]) hx
  | command f i hs hd h =>
    obtain ⟨hwe, hstores⟩ := h.storesAt hx
    exact .inr ⟨hs, hwe, f, i, rfl, hd, hstores⟩
  | debugWrite y v h =>
    by_cases hxy : x = y
    · exact .inl ⟨v, by rw [hxy]⟩
    · exact absurd (by rw [h.mem, State.withMem_mem, Memory.read_write_other s.mem v hxy]) hx

end Writers

/-- Settles O14: of the changes a step makes, the two select calls' alone touch select. -/
theorem onlySelectCallsMoveTheSelectLine : Obligations.OnlySelectCallsMoveTheSelectLine :=
  fun _ _ h hne => (step_change h).sel_writers hne

/-- Settles O15: promotion is the one change that sets `we`. -/
theorem writesAreEnabledOnlyByAPromotion : Obligations.WritesAreEnabledOnlyByAPromotion := by
  intro s t h hs ht
  obtain ⟨-, hpromotion⟩ | ⟨ht', -⟩ := (step_change h).we_writers (by simp [hs, ht])
  · exact hpromotion
  · rw [ht] at ht'
    cases ht'

/-- Settles O16: WRDI is the one change that clears `we`. -/
theorem writesAreDisabledOnlyByWrdi : Obligations.WritesAreDisabledOnlyByWrdi := by
  intro s t h hs ht
  obtain ⟨ht', -⟩ | ⟨-, hwrdi⟩ := (step_change h).we_writers (by simp [hs, ht])
  · rw [ht] at ht'
    cases ht'
  · exact hwrdi

/-- Settles O18: the changes that touch `wi` are the four. -/
theorem writeInitiatedHasFourWriters : Obligations.WriteInitiatedHasFourWriters :=
  fun _ _ h hne => (step_change h).wi_writers hne

/-- Settles O37: the changes that touch memory are the two. -/
theorem memoryChangesOnlyByHonouredWriteOrDebugWrite :
    Obligations.MemoryChangesOnlyByHonouredWriteOrDebugWrite :=
  fun _ _ h _ hx => (step_change h).mem_writers hx

end Sys2Proof.Machine
end

section
/-! The latch transition table (R93, R94): where each command and each call goes. -/

namespace Sys2Proof.Machine

theorem latch_of_we {s : State} (h : s.we = true) : s.latch = .enabled ∨ s.latch = .enabledP := by
  cases hwi : s.wi <;> simp [State.latch, h, hwi]

/-! ## The columns -/

@[simp] theorem LatchState.after_desel (l : LatchState) : l.after .desel = l := by cases l <;> rfl
@[simp] theorem LatchState.after_read (l : LatchState) : l.after .read = l := by cases l <;> rfl
@[simp] theorem LatchState.after_error (l : LatchState) : l.after .error = l := by cases l <;> rfl
@[simp] theorem LatchState.after_debug (l : LatchState) : l.after .debug = l := by cases l <;> rfl

theorem latch_promote (s : State) : (promote s).latch = s.latch.after .sel := by
  cases hwi : s.wi <;> cases hwe : s.we <;> simp [State.latch, hwi, hwe, LatchState.after]

theorem latch_arm (s : State) : (arm s).latch = s.latch.after .wren := by
  cases hwi : s.wi <;> cases hwe : s.we <;> simp [State.latch, hwi, hwe, LatchState.after]

theorem latch_disarm (s : State) : (disarm s).latch = s.latch.after .wrdi := by
  cases hwi : s.wi <;> cases hwe : s.we <;> simp [State.latch, hwi, hwe, LatchState.after]

theorem latch_after_write_of_we {s : State} (h : s.we = true) : s.latch.after .write = s.latch := by
  cases hwi : s.wi <;> simp [State.latch, hwi, h, LatchState.after]

theorem latch_dropPending {s : State} (h : s.we = false) : (dropPending s).latch = s.latch.after .write := by
  cases hwi : s.wi <;> simp [State.latch, hwi, h, LatchState.after]

/-! ## Commands and calls -/

/-- The next state is where the table's column leads, and memory changes only where it says so. -/
def FollowsTable (s : State) (e : LatchEvent) (t : State) : Prop :=
  t.latch = s.latch.after e ∧
    (t.mem ≠ s.mem → (e = .write ∧ (s.latch = .enabled ∨ s.latch = .enabledP)) ∨ e = .debug)

theorem followsTable_of_mem_eq {s t : State} {e : LatchEvent} (hlatch : t.latch = s.latch.after e)
    (hmem : t.mem = s.mem) : FollowsTable s e t :=
  ⟨hlatch, fun hne => absurd hmem hne⟩

theorem withAnswer_followsTable_error (s : State) (r : Answer) : FollowsTable s .error (s.withAnswer r) :=
  followsTable_of_mem_eq (LatchState.after_error _).symm rfl

theorem exec_followsTable {i : Instr} {s t : State} (h : exec i s = .next t) :
    FollowsTable s (commandEvent i) t := by
  obtain ⟨a, len, rfl, rfl⟩ | ⟨a, p, rfl, hwe, rfl⟩ | ⟨a, p, rfl, hwe, rfl⟩ | ⟨a, rfl, rfl⟩ | ⟨a, rfl, rfl⟩ |
    ⟨he, rfl⟩ := exec_cases h
  · exact followsTable_of_mem_eq (LatchState.after_read _).symm rfl
  · exact ⟨(latch_after_write_of_we hwe).symm, fun _ => .inl ⟨rfl, latch_of_we hwe⟩⟩
  · exact followsTable_of_mem_eq (latch_dropPending hwe) rfl
  · exact followsTable_of_mem_eq (latch_arm s) rfl
  · exact followsTable_of_mem_eq (latch_disarm s) rfl
  · rw [he]
    exact withAnswer_followsTable_error s _

theorem transfer_event_of_reject {f : Frame} {e : FrameError} (hd : decode f = .reject e) (s : State) :
    Call.event (.transfer (some f)) s = some .error := by
  simp [Call.event, hd]

theorem transfer_event_of_deselected {s : State} (hs : s.sel = false) (frame : Option Frame) :
    Call.event (.transfer frame) s = some .error := by
  cases frame <;> simp [Call.event, hs]

theorem transfer_event_of_decode {f : Frame} {i : Instr} {s : State} (hs : s.sel = true)
    (hd : decode f = .instr i) : Call.event (.transfer (some f)) s = some (commandEvent i) := by
  simp [Call.event, hs, hd]

theorem transfer_followsTable {frame : Option Frame} {s t : State} {e : LatchEvent}
    (he : Call.event (.transfer frame) s = some e) (h : runCall (.transfer frame) s = .next t) :
    FollowsTable s e t := by
  obtain ⟨hs, rfl⟩ | ⟨-, rfl | ⟨f, e', rfl, hd⟩, rfl⟩ | ⟨hs, f, i, rfl, hd, h⟩ := transfer_cases h
  · cases (transfer_event_of_deselected hs frame).symm.trans he
    exact withAnswer_followsTable_error s _
  · cases he
    exact withAnswer_followsTable_error s _
  · cases (transfer_event_of_reject hd s).symm.trans he
    exact withAnswer_followsTable_error s _
  · cases (transfer_event_of_decode hs hd).symm.trans he
    exact exec_followsTable h

theorem runCall_followsTable {c : Call} {s t : State} {e : LatchEvent} (he : c.event s = some e)
    (h : runCall c s = .next t) : FollowsTable s e t := by
  cases c with
  | transfer frame => exact transfer_followsTable he h
  | assertSelect =>
    obtain rfl := reply_eq_next.mp h
    cases he
    exact followsTable_of_mem_eq (latch_promote (s.withSel true)) (promote_mem (s.withSel true))
  | deassertSelect =>
    obtain rfl := reply_eq_next.mp h
    cases he
    exact followsTable_of_mem_eq (LatchState.after_desel _).symm rfl
  | encode op a => cases he
  | decode w => cases he
  | debugRead a =>
    obtain rfl := reply_eq_next.mp h
    cases he
    exact followsTable_of_mem_eq (LatchState.after_debug _).symm rfl
  | debugWrite a v =>
    obtain rfl := reply_eq_next.mp h
    cases he
    exact ⟨(LatchState.after_debug _).symm, fun _ => .inr rfl⟩

/-- Settles O13: a call answers a next state, and its column's cell is the latch pair its meaning leaves. -/
theorem latchControllerFollowsItsTable : Obligations.LatchControllerFollowsItsTable := by
  intro c s e he
  obtain ⟨t, h⟩ := runCall_next c s
  exact ⟨t, h, runCall_followsTable he h⟩

/-! ## Runs of requests -/

theorem steps_succ_of_step {s t : State} (h : step s = .next t) (n : Nat) : steps (n + 1) s = steps n t := by
  simp [steps, h, andThen]

theorem step_of_no_request {s : State} (hj : s.driver.job = none) (hr : s.requests = []) :
    step s = .next s := by
  simp [step, serve, hj, hr]

theorem steps_one (s : State) : steps 1 s = step s := by
  cases h : step s <;> simp [steps, h, andThen]

theorem steps_add_of_steps {m : Nat} {s t : State} (h : steps m s = .next t) (n : Nat) :
    steps (m + n) s = steps n t := by
  rw [steps_add, h]
  rfl

/-- Settles O21: the two shapes of a step with no operation under way and no driver operation next. -/
theorem stepMakesTheNextCall : Obligations.StepMakesTheNextCall :=
  ⟨fun _ _ _ hj hr => step_of_call hj hr, fun _ hj hr => step_of_no_request hj hr⟩

theorem step_of_transfer {s : State} {f : Frame} {rest : List Request} {i : Instr}
    (hj : s.driver.job = none) (hr : s.requests = .call (.transfer (some f)) :: rest) (hs : s.sel = true)
    (hd : decode f = .instr i) : step s = exec i (s.withRequests rest) := by
  rw [step_of_call hj hr, transfer_of_decode (s := s.withRequests rest) hs hd]

/-- Settles O22: the step is the call, and the call is the command. -/
theorem stepRunsTheDecodedInstruction : Obligations.StepRunsTheDecodedInstruction :=
  fun _ _ _ _ hj hr hs hd => step_of_transfer hj hr hs hd

/-- Settles O17: the first step is WREN, which leaves `we` false, so the second is a rejected WRITE. -/
theorem aWrenArmsNoWriteInItsOwnPulse : Obligations.AWrenArmsNoWriteInItsOwnPulse := by
  intro s fWren fWrite a b p rest hj hs hwe hr hwren hwrite
  have hfirst := (step_of_transfer hj hr hs hwren).trans (exec_wren a _)
  have hsecond := (step_of_transfer (s := ((s.withRequests (.call (.transfer (some fWrite)) :: rest)).withWi
    true).withAnswer (.ok (.bytes []))) hj rfl hs hwrite).trans
      (exec_write_of_not_we b p hwe)
  exact ⟨steps_succ_of_step hfirst 0, (steps_succ_of_step hfirst 1).trans (steps_succ_of_step hsecond 0)⟩

end Sys2Proof.Machine
end

section
/-! The two enabled latch states cannot be told apart (R93): `wi` is read by promotion alone, and promotion
sets `we` and clears `wi`, which it finds true or does not need when `we` is set. So every operation keeps
`EnabledAlike`, every step does, and by induction every run. -/

namespace Sys2Proof.Machine

section Alike

variable {s t : State}

theorem EnabledAlike.sel (h : EnabledAlike s t) : t.sel = s.sel := h.1

theorem EnabledAlike.we (h : EnabledAlike s t) : t.we = s.we := h.2.1

theorem EnabledAlike.mem (h : EnabledAlike s t) : t.mem = s.mem := h.2.2.1

theorem EnabledAlike.answer (h : EnabledAlike s t) : t.answer = s.answer := h.2.2.2.1

theorem EnabledAlike.requests (h : EnabledAlike s t) : t.requests = s.requests := h.2.2.2.2.1

theorem EnabledAlike.driver (h : EnabledAlike s t) : t.driver = s.driver := h.2.2.2.2.2.1

/-! ## State operations -/

theorem EnabledAlike.withSel (h : EnabledAlike s t) (b : Bool) : EnabledAlike (s.withSel b) (t.withSel b) := by
  obtain ⟨-, hwe, hmem, ha, hr, hd, hwi⟩ := h
  exact ⟨rfl, hwe, hmem, ha, hr, hd, hwi⟩

theorem EnabledAlike.withMem (h : EnabledAlike s t) (m : Memory) : EnabledAlike (s.withMem m) (t.withMem m) := by
  obtain ⟨hsel, hwe, -, ha, hr, hd, hwi⟩ := h
  exact ⟨hsel, hwe, rfl, ha, hr, hd, hwi⟩

theorem EnabledAlike.withAnswer (h : EnabledAlike s t) (r : Answer) :
    EnabledAlike (s.withAnswer r) (t.withAnswer r) := by
  obtain ⟨hsel, hwe, hmem, -, hr, hd, hwi⟩ := h
  exact ⟨hsel, hwe, hmem, rfl, hr, hd, hwi⟩

theorem EnabledAlike.withRequests (h : EnabledAlike s t) (rs : List Request) :
    EnabledAlike (s.withRequests rs) (t.withRequests rs) := by
  obtain ⟨hsel, hwe, hmem, ha, -, hd, hwi⟩ := h
  exact ⟨hsel, hwe, hmem, ha, rfl, hd, hwi⟩

theorem EnabledAlike.withDriver (h : EnabledAlike s t) (d : Driver) :
    EnabledAlike (s.withDriver d) (t.withDriver d) := by
  obtain ⟨hsel, hwe, hmem, ha, hr, -, hwi⟩ := h
  exact ⟨hsel, hwe, hmem, ha, hr, rfl, hwi⟩

theorem EnabledAlike.promote (h : EnabledAlike s t) : EnabledAlike (promote s) (promote t) := by
  obtain ⟨hsel, hwe, hmem, ha, hr, hd, hwi⟩ := h
  have hwe' : (t.we || t.wi) = (s.we || s.wi) := by
    cases h : s.we with
    | true => simp [hwe, h]
    | false => simp [hwe, h, hwi h]
  exact ⟨by simpa using hsel, by simpa using hwe', by simpa using hmem, by simpa using ha,
    by simpa using hr, by simpa using hd, by simp⟩

theorem EnabledAlike.arm (h : EnabledAlike s t) : EnabledAlike (arm s) (arm t) := by
  obtain ⟨hsel, hwe, hmem, ha, hr, hd, -⟩ := h
  exact ⟨hsel, hwe, hmem, ha, hr, hd, fun _ => rfl⟩

theorem EnabledAlike.disarm (h : EnabledAlike s t) : EnabledAlike (disarm s) (disarm t) := by
  obtain ⟨hsel, -, hmem, ha, hr, hd, -⟩ := h
  exact ⟨hsel, rfl, hmem, ha, hr, hd, fun _ => rfl⟩

theorem EnabledAlike.dropPending (h : EnabledAlike s t) : EnabledAlike (dropPending s) (dropPending t) := by
  obtain ⟨hsel, hwe, hmem, ha, hr, hd, -⟩ := h
  exact ⟨hsel, hwe, hmem, ha, hr, hd, fun _ => rfl⟩

theorem EnabledAlike.withJob (h : EnabledAlike s t) (j : Job) : EnabledAlike (withJob j s) (withJob j t) := by
  rw [Machine.withJob, Machine.withJob, h.driver]
  exact h.withDriver _

theorem EnabledAlike.finishOp (h : EnabledAlike s t) (r : Answer) :
    EnabledAlike (finishOp r s) (finishOp r t) := by
  rw [Machine.finishOp, Machine.finishOp, h.driver]
  exact h.withDriver _

/-! ## Calls -/

theorem AlikeResults.andThen {x y : Result} {f g : State → Result} (h : AlikeResults x y)
    (hfg : ∀ u v, EnabledAlike u v → AlikeResults (f u) (g v)) :
    AlikeResults (andThen x f) (andThen y g) := by
  cases x with
  | next u =>
    cases y with
    | next v => exact hfg u v h
    | fault _ => exact h.elim
    | refused _ => exact h.elim
  | fault _ =>
    cases y with
    | next _ => exact h.elim
    | fault _ => exact h
    | refused _ => exact h.elim
  | refused _ =>
    cases y with
    | next _ => exact h.elim
    | fault _ => exact h.elim
    | refused _ => exact h

theorem reply_alike (h : EnabledAlike s t) (v : Value) : AlikeResults (reply v s) (reply v t) :=
  h.withAnswer _

theorem raise_alike (h : EnabledAlike s t) (info : ErrorInfo) : AlikeResults (raise info s) (raise info t) :=
  h.withAnswer _

theorem exec_alike (h : EnabledAlike s t) (i : Instr) : AlikeResults (exec i s) (exec i t) := by
  cases i with
  | read a len =>
    rw [exec, exec, execRead, execRead, h.mem]
    exact reply_alike h _
  | write a p =>
    rw [exec, exec, execWrite, execWrite, h.we, h.mem]
    split
    · exact reply_alike (h.withMem _) _
    · exact reply_alike h.dropPending _
  | wren a => exact reply_alike h.arm _
  | wrdi a => exact reply_alike h.disarm _
  | rdsr a => exact raise_alike h _
  | wrsr a => exact raise_alike h _
  | unassigned000 a => exact raise_alike h _
  | unassigned111 a => exact raise_alike h _

theorem runCall_alike (h : EnabledAlike s t) (c : Call) : AlikeResults (runCall c s) (runCall c t) := by
  cases c with
  | transfer frame =>
    rw [runCall, runCall, transfer.eq_def, transfer.eq_def, h.sel]
    split
    · cases frame with
      | none => exact raise_alike h _
      | some f =>
        dsimp only
        cases decode f with
        | reject e => exact raise_alike h _
        | instr i => exact exec_alike h i
    · exact raise_alike h _
  | assertSelect => exact reply_alike (h.withSel true).promote _
  | deassertSelect => exact reply_alike (h.withSel false) _
  | encode op a => exact reply_alike h _
  | decode w => exact reply_alike h _
  | debugRead a =>
    rw [runCall, runCall, debugRead, debugRead, h.mem]
    exact reply_alike h _
  | debugWrite a v =>
    rw [runCall, runCall, debugWrite, debugWrite, h.mem]
    exact reply_alike (h.withMem _) _

/-! ## The driver -/

theorem failOp_alike (h : EnabledAlike s t) (k : ErrorKind) : AlikeResults (failOp k s) (failOp k t) :=
  h.finishOp _

theorem startJob_alike (h : EnabledAlike s t) (a : Addr) (len : Len) (stage : Stage) :
    AlikeResults (startJob a len stage s) (startJob a len stage t) := by
  rw [startJob, startJob, h.driver]
  exact h.withDriver _

theorem validated_alike (h : EnabledAlike s t) (address : Nat) {k k' : Addr → Result}
    (hk : ∀ a, AlikeResults (k a) (k' a)) : AlikeResults (validated address s k) (validated address t k') := by
  rw [validated, validated, h.driver]
  split
  · exact failOp_alike h _
  · split
    · exact hk _
    · exact failOp_alike h _

theorem startWriteArray_alike (h : EnabledAlike s t) (a : Addr) (data : Option (List Byte)) (len : Len) :
    AlikeResults (startWriteArray a data len s) (startWriteArray a data len t) := by
  cases data with
  | none => exact failOp_alike h _
  | some bytes =>
    rw [startWriteArray, startWriteArray]
    split
    · exact failOp_alike h _
    · split
      · exact rfl
      · exact startJob_alike h _ _ _

theorem startOp_alike (h : EnabledAlike s t) (op : DriverOp) : AlikeResults (startOp op s) (startOp op t) := by
  cases op with
  | readBit n => exact validated_alike h n fun a => startJob_alike h _ _ _
  | readByte n => exact validated_alike h n fun a => startJob_alike h _ _ _
  | readByteArray n len =>
    rw [startOp, startOp]
    refine validated_alike h n fun a => ?_
    split
    · exact failOp_alike h _
    · exact startJob_alike h _ _ _
  | writeBit n v => exact validated_alike h n fun a => startJob_alike h _ _ _
  | writeByte n v => exact validated_alike h n fun a => startJob_alike h _ _ _
  | writeByteArray n data len => exact validated_alike h n fun a => startWriteArray_alike h _ _ _
  | stop =>
    rw [startOp, startOp, h.driver]
    exact (h.withDriver _).finishOp _
  | resume =>
    rw [startOp, startOp, h.driver]
    exact (h.withDriver _).finishOp _

theorem nextPulse_alike (h : EnabledAlike s t) (j : Job) (stage : Stage) :
    AlikeResults (nextPulse j stage s) (nextPulse j stage t) :=
  h.withJob _

theorem useResponse_alike (h : EnabledAlike s t) (j : Job) (use : ReadUse) (bs : List Byte) :
    AlikeResults (useResponse j use bs s) (useResponse j use bs t) := by
  rw [useResponse.eq_def, useResponse.eq_def]
  split
  · exact h.finishOp _
  · exact h.finishOp _
  · exact h.finishOp _
  · exact nextPulse_alike h _ _
  · exact rfl
  · exact rfl
  · exact rfl

theorem pulseOk_alike (h : EnabledAlike s t) (j : Job) (v : Value) :
    AlikeResults (pulseOk j v s) (pulseOk j v t) := by
  rw [pulseOk.eq_def, pulseOk.eq_def]
  split
  · exact useResponse_alike h _ _ _
  · exact rfl
  · exact nextPulse_alike h _ _
  · exact nextPulse_alike h _ _
  · exact h.finishOp _

theorem pulseDone_alike (h : EnabledAlike s t) (j : Job) (r : Option Answer) :
    AlikeResults (pulseDone j r s) (pulseDone j r t) := by
  rcases r with _ | ⟨v | k⟩
  · exact rfl
  · exact pulseOk_alike h j v
  · exact h.finishOp _

theorem driverStep_alike (h : EnabledAlike s t) (j : Job) :
    AlikeResults (driverStep j s) (driverStep j t) := by
  rw [driverStep, driverStep, h.answer]
  split
  · exact (runCall_alike h _).andThen fun u v huv => huv.withJob _
  · exact (runCall_alike h _).andThen fun u v huv => huv.withJob _
  · exact (runCall_alike h _).andThen fun u v huv => pulseDone_alike huv j _

/-! ## Steps -/

theorem step_alike (h : EnabledAlike s t) : AlikeResults (step s) (step t) := by
  rw [step, step, serve.eq_def, serve.eq_def, h.requests, h.driver]
  split
  · exact driverStep_alike h _
  · exact h
  · exact runCall_alike (h.withRequests _) _
  · exact startOp_alike (h.withRequests _) _

end Alike

/-- Settles O19, by induction on the number of steps: one step keeps the two states alike, or stops them
alike. -/
theorem enabledStatesCannotBeToldApart : Obligations.EnabledStatesCannotBeToldApart := by
  intro n
  induction n with
  | zero => exact fun s t h => h
  | succ n ih => exact fun s t h => (step_alike h).andThen ih

end Sys2Proof.Machine
end

section
/-! The machine's invariant (R130 to R142): a driver operation under way is where its sequence says. Each of
a pulse's three calls keeps it and answers, and an operation that starts meets it or fails its own checks. -/

namespace Sys2Proof.Machine

/-! ## The command of a pulse -/

/-- The command that the job's pulse sends (R134 to R139). -/
def Job.command (j : Job) : Instr :=
  match j.stage with
  | .read _ => .read j.addr j.length
  | .wren _ => .wren 0
  | .write data => .write j.addr data
  | .wrdi => .wrdi 0

theorem decode_readFrame (a : Addr) (len : Len) : decode (readFrame a len) = .instr (.read a len) := by
  rw [readFrame, ← List.append_nil (header opREAD a ++ lengthField len)]
  exact decode_encode_append (.read a len) [] rfl

theorem decode_wrenFrame : decode wrenFrame = .instr (.wren 0) :=
  decode_encode_append (.wren 0) (lengthField 0) rfl

theorem decode_wrdiFrame : decode wrdiFrame = .instr (.wrdi 0) :=
  decode_encode_append (.wrdi 0) (lengthField 0) rfl

theorem decode_writeFrame (a : Addr) {len : Len} {data : List Byte} (h : data.length = len.toNat) :
    decode (writeFrame a len data) = .instr (.write a data) := by
  have hlen : BitVec.ofNat 16 data.length = len := by rw [h, BitVec.ofNat_toNat, BitVec.setWidth_eq]
  have hfits : data.length ≤ Config.maxLen := h ▸ Nat.le_of_lt_succ len.isLt
  rw [← List.append_nil (writeFrame a len data), ← hlen]
  exact decode_encode_append (.write a data) [] (decide_eq_true hfits)

theorem Job.decode_frame {j : Job} (h : j.sized) : decode j.frame = .instr j.command := by
  obtain ⟨a, len, stage, phase⟩ := j
  cases stage with
  | read use => exact decode_readFrame a len
  | wren data => exact decode_wrenFrame
  | write data => exact decode_writeFrame a h
  | wrdi => exact decode_wrdiFrame

/-! ## Memory stays canonical -/

theorem CommandChange.mem_wf {s t : State} {i : Instr} (h : CommandChange s t i) (hw : s.mem.wf) :
    t.mem.wf := by
  cases h with
  | none _ h => exact h.mem ▸ hw
  | store a p _ h => exact h.mem ▸ writeRun_wf hw a p
  | drop a p _ h => exact h.mem ▸ hw
  | arm a h => exact h.mem ▸ hw
  | disarm a h => exact h.mem ▸ hw

theorem BlockChange.mem_wf {s t : State} {c : Option Call} (h : BlockChange s t c) (hw : s.mem.wf) :
    t.mem.wf := by
  cases h with
  | none _ h => exact h.mem ▸ hw
  | assert h =>
    rw [h.mem, promote_mem]
    exact hw
  | deassert h => exact h.mem ▸ hw
  | command f i _ _ h => exact h.mem_wf hw
  | debugWrite x v h => exact h.mem ▸ Memory.write_wf hw x v

/-! ## The three calls of a pulse -/

/-- An operation under way is where its sequence says (R130, R142). -/
def JobInPlace (s : State) : Prop := ∀ j, s.driver.job = some j → j.sized ∧ j.inPhase s

theorem invariant_iff (s : State) : Invariant s ↔ s.mem.wf ∧ JobInPlace s := Iff.rfl

theorem jobInPlace_of_no_job {s : State} (h : s.driver.job = none) : JobInPlace s :=
  fun j hj => by rw [h] at hj; cases hj

theorem jobInPlace_of_job {s : State} {j : Job} (h : s.driver.job = some j) (hsized : j.sized)
    (hphase : j.inPhase s) : JobInPlace s :=
  fun j' hj => by rw [h] at hj; cases hj; exact ⟨hsized, hphase⟩

/-- What the driver's own call leaves: a job in place, and no new error. -/
def GoesOn (s t : State) : Prop :=
  JobInPlace t ∧ (t.driver.result = s.driver.result ∨ ∃ v, t.driver.result = some (.ok v))

theorem driverStep_select_goesOn {j : Job} {s : State} (hp : j.phase = .select) (hsized : j.sized)
    (hpending : ∀ data, j.stage = .write data → s.wi = true) :
    ∃ t, driverStep j s = .next t ∧ GoesOn s t := by
  refine ⟨_, driverStep_select hp, jobInPlace_of_job rfl hsized ⟨?_, fun data hd => ?_⟩, .inl ?_⟩
  · simp
  · simp [hpending data hd]
  · simp

/-- The transfer of a pulse has the effect its command has (R102 to R106). -/
theorem Job.transferred_of_exec {j : Job} {s u : State}
    (harmed : ∀ data, j.stage = .write data → s.we = true) (h : exec j.command s = .next u) :
    j.transferred u := by
  obtain ⟨a, len, stage, phase⟩ := j
  cases stage with
  | read use =>
    cases (exec_read a len s).symm.trans h
    exact ⟨_, rfl, readRun_length _ _ _⟩
  | wren data =>
    cases (exec_wren 0 s).symm.trans h
    exact ⟨rfl, rfl⟩
  | write data =>
    have hwe := harmed data rfl
    cases (exec_write_of_we a data hwe).symm.trans h
    exact ⟨rfl, hwe⟩
  | wrdi =>
    cases (exec_wrdi 0 s).symm.trans h
    exact ⟨rfl, rfl, rfl⟩

theorem driverStep_transfer_goesOn {j : Job} {s : State} (hp : j.phase = .transfer) (hsized : j.sized)
    (hsel : s.sel = true) (harmed : ∀ data, j.stage = .write data → s.we = true) :
    ∃ t, driverStep j s = .next t ∧ GoesOn s t := by
  obtain ⟨u, hu⟩ := exec_next j.command s
  have hcall := (transfer_of_decode hsel (Job.decode_frame hsized)).trans hu
  have hsel' : u.sel = true := (exec_change hu).sel.trans hsel
  have htransferred := Job.transferred_of_exec harmed hu
  refine ⟨_, (driverStep_transfer hp).mpr ⟨u, hcall, rfl⟩,
    jobInPlace_of_job rfl hsized ⟨hsel', htransferred⟩, .inl ?_⟩
  rw [withJob_driver, (exec_host hu).2]

/-- A response of length 1 has a first byte and no other. -/
theorem exists_byte_of_length_one {bs : List Byte} {len : Len} (h : bs.length = len.toNat) (hlen : len = 1) :
    ∃ b, bs = [b] := by
  rw [hlen] at h
  exact List.length_eq_one_iff.mp h

/-- A pulse whose transfer has returned what its command returns ends in the operation's result, or its next
pulse is due. -/
theorem pulseDone_of_transferred {j : Job} {s : State} (hsized : j.sized) (h : j.transferred s) (t : State) :
    (∃ v, pulseDone j s.answer t = .next (finishOp (.ok v) t)) ∨
    (∃ stage, pulseDone j s.answer t = nextPulse j stage t ∧
      Job.sized { j with stage := stage, phase := .select } ∧ (∀ data, stage = .write data → s.wi = true)) := by
  obtain ⟨a, len, stage, phase⟩ := j
  cases stage with
  | read use =>
    obtain ⟨bs, ha, hbs⟩ := h
    rw [ha]
    cases use with
    | array => exact .inl ⟨_, rfl⟩
    | bit =>
      obtain ⟨b, rfl⟩ := exists_byte_of_length_one hbs hsized
      exact .inl ⟨_, rfl⟩
    | byte =>
      obtain ⟨b, rfl⟩ := exists_byte_of_length_one hbs hsized
      exact .inl ⟨_, rfl⟩
    | modify v =>
      obtain ⟨b, rfl⟩ := exists_byte_of_length_one hbs hsized
      exact .inr ⟨.wren [mergeTopBit v b], rfl, hbs, nofun⟩
  | wren data =>
    obtain ⟨ha, hwi⟩ := h
    rw [ha]
    exact .inr ⟨.write data, rfl, hsized, fun _ _ => hwi⟩
  | write data =>
    obtain ⟨ha, -⟩ := h
    rw [ha]
    exact .inr ⟨.wrdi, rfl, trivial, nofun⟩
  | wrdi =>
    obtain ⟨ha, -, -⟩ := h
    rw [ha]
    exact .inl ⟨_, rfl⟩

theorem driverStep_release_goesOn {j : Job} {s : State} (hp : j.phase = .release) (hsized : j.sized)
    (htransferred : j.transferred s) : ∃ t, driverStep j s = .next t ∧ GoesOn s t := by
  rw [driverStep_release hp]
  obtain ⟨v, h⟩ | ⟨stage, h, hsized', hwi⟩ := pulseDone_of_transferred hsized htransferred
    ((s.withSel false).withAnswer (.ok (.bytes [])))
  · exact ⟨_, h, jobInPlace_of_no_job rfl, .inr ⟨v, rfl⟩⟩
  · exact ⟨_, h, jobInPlace_of_job rfl hsized' hwi, .inl rfl⟩

/-- From its place in its sequence an operation under way never stops and never fails. -/
theorem driverStep_goesOn {j : Job} {s : State} (hsized : j.sized) (hphase : j.inPhase s) :
    ∃ t, driverStep j s = .next t ∧ GoesOn s t := by
  rw [Job.inPhase.eq_def] at hphase
  cases hp : j.phase with
  | select =>
    rw [hp] at hphase
    exact driverStep_select_goesOn hp hsized hphase
  | transfer =>
    rw [hp] at hphase
    obtain ⟨hsel, harmed⟩ := hphase
    exact driverStep_transfer_goesOn hp hsized hsel harmed
  | release =>
    rw [hp] at hphase
    obtain ⟨-, htransferred⟩ := hphase
    exact driverStep_release_goesOn hp hsized htransferred

/-! ## How an operation starts -/

/-- Everything the start of an operation can do: fail one of the driver's checks, set the soft-switch, make
its first pulse due, or refuse data shorter than its length. -/
inductive StartOutcome (op : DriverOp) (s : State) : Result → Prop
  | fail (k : ErrorKind) (hk : k = .addressOutOfRange ∨ k = .deviceStopped ∨ k = .invalidArgument) :
      StartOutcome op s (.next (finishOp (.err k) s))
  | switch (b : Bool) :
      StartOutcome op s (.next (finishOp (.ok .unit) (s.withDriver { s.driver with isWorking := b })))
  | pulse (j : Job) (hp : j.phase = .select) (hsized : j.sized) (hstage : ∀ data, j.stage ≠ .write data) :
      StartOutcome op s (.next (s.withDriver { s.driver with job := some j, result := none }))
  | refuse (n : Nat) (data : List Byte) (len : Len) (hop : op = .writeByteArray n (some data) len)
      (hshort : data.length < len.toNat) : StartOutcome op s (.refused .dataShorterThanLength)

theorem startJob_outcome {op : DriverOp} {s : State} {a : Addr} {len : Len} {stage : Stage}
    (hsized : Job.sized ⟨a, len, stage, .select⟩) (hstage : ∀ data, stage ≠ .write data) :
    StartOutcome op s (startJob a len stage s) :=
  .pulse _ rfl hsized hstage

theorem validated_outcome {op : DriverOp} {s : State} (n : Nat) {k : Addr → Result}
    (hk : ∀ a, StartOutcome op s (k a)) : StartOutcome op s (validated n s k) := by
  rw [validated]
  split
  · exact .fail _ (.inl rfl)
  · split
    · exact hk _
    · exact .fail _ (.inr (.inl rfl))

theorem startWriteArray_outcome (n : Nat) (data : Option (List Byte)) (len : Len) (s : State) (a : Addr) :
    StartOutcome (.writeByteArray n data len) s (startWriteArray a data len s) := by
  cases data with
  | none => exact .fail _ (.inr (.inr rfl))
  | some bytes =>
    rw [startWriteArray]
    split
    · exact .fail _ (.inr (.inr rfl))
    · split
      · next hshort => exact .refuse n bytes len rfl hshort
      · next hlong => exact startJob_outcome (List.length_take_of_le (Nat.le_of_not_lt hlong)) nofun

theorem startOp_outcome (op : DriverOp) (s : State) : StartOutcome op s (startOp op s) := by
  cases op with
  | readBit n => exact validated_outcome n fun a => startJob_outcome (stage := .read .bit) rfl nofun
  | readByte n => exact validated_outcome n fun a => startJob_outcome (stage := .read .byte) rfl nofun
  | readByteArray n len =>
    rw [startOp]
    refine validated_outcome n fun a => ?_
    split
    · exact .fail _ (.inr (.inr rfl))
    · next hlen => exact startJob_outcome hlen nofun
  | writeBit n v => exact validated_outcome n fun a => startJob_outcome (stage := .read (.modify v)) rfl nofun
  | writeByte n v => exact validated_outcome n fun a => startJob_outcome (len := 1) (stage := .wren [v]) rfl nofun
  | writeByteArray n data len => exact validated_outcome n (startWriteArray_outcome n data len s)
  | stop => exact .switch false
  | resume => exact .switch true

theorem startOp_jobInPlace {op : DriverOp} {s t : State} (h : startOp op s = .next t) : JobInPlace t := by
  have houtcome := startOp_outcome op s
  rw [h] at houtcome
  cases houtcome with
  | fail k hk => exact jobInPlace_of_no_job rfl
  | switch b => exact jobInPlace_of_no_job rfl
  | pulse j hp hsized hstage =>
    refine jobInPlace_of_job rfl hsized ?_
    rw [Job.inPhase, hp]
    exact fun data hd => absurd hd (hstage data)

/-! ## The invariant -/

/-- Settles O41: nothing is listed and nothing is under way. -/
theorem constructionMeetsTheInvariant : Obligations.ConstructionMeetsTheInvariant :=
  (invariant_iff State.reset).mpr ⟨Memory.nil_wf, jobInPlace_of_no_job rfl⟩

/-- Settles O40: the fields of the reset state, read off it. -/
theorem constructionState : Obligations.ConstructionState :=
  ⟨rfl, rfl, rfl, Memory.read_nil, rfl, rfl, rfl, rfl⟩

theorem step_jobInPlace {s t : State} (hs : JobInPlace s) (h : step s = .next t) : JobInPlace t := by
  obtain ⟨j, hj, h⟩ | ⟨-, -, rfl⟩ | ⟨c, rest, hj, -, h⟩ | ⟨op, rest, -, -, h⟩ := step_cases h
  · obtain ⟨hsized, hphase⟩ := hs j hj
    obtain ⟨t', ht', hplace, -⟩ := driverStep_goesOn hsized hphase
    cases ht'.symm.trans h
    exact hplace
  · exact hs
  · refine jobInPlace_of_no_job ?_
    rw [(runCall_host h).2]
    exact hj
  · exact startOp_jobInPlace h

/-- Settles O42: every change of memory keeps it canonical; a pulse's own call keeps its job in place, a
call of the host's leaves no job under way, and an operation starts in place. -/
theorem everyStepKeepsTheInvariant : Obligations.EveryStepKeepsTheInvariant := by
  intro s t hs h
  obtain ⟨hmem, hjob⟩ := (invariant_iff s).mp hs
  exact (invariant_iff t).mpr ⟨(step_change h).mem_wf hmem, step_jobInPlace hjob h⟩

/-- Settles O43: an operation in its place goes on, an interface call answers, and of the starts of an
operation one is refused. -/
theorem noStepStopsButShortDriverData : Obligations.NoStepStopsButShortDriverData := by
  rintro s ⟨-, hjob⟩
  cases hj : s.driver.job with
  | some j =>
    obtain ⟨hsized, hphase⟩ := hjob j hj
    obtain ⟨t, ht, -⟩ := driverStep_goesOn hsized hphase
    exact .inl ⟨t, (step_of_job hj).trans ht⟩
  | none =>
    rcases hr : s.requests with _ | ⟨c | op, rest⟩
    · exact .inl ⟨s, step_of_no_request hj hr⟩
    · obtain ⟨t, ht⟩ := runCall_next c (s.withRequests rest)
      exact .inl ⟨t, (step_of_call hj hr).trans ht⟩
    · have houtcome := startOp_outcome op (s.withRequests rest)
      rw [← step_of_op hj hr] at houtcome
      generalize step s = r at houtcome
      cases houtcome with
      | fail k hk => exact .inl ⟨_, rfl⟩
      | switch b => exact .inl ⟨_, rfl⟩
      | pulse j hp hsized hstage => exact .inl ⟨_, rfl⟩
      | refuse n data len hop hshort => exact .inr ⟨rfl, n, data, len, rest, rfl, by rw [hop], hshort⟩

theorem startOp_err {op : DriverOp} {s t : State} {k : ErrorKind} (h : startOp op s = .next t)
    (hk : t.driver.result = some (.err k)) :
    k = .addressOutOfRange ∨ k = .deviceStopped ∨ k = .invalidArgument := by
  have houtcome := startOp_outcome op s
  rw [h] at houtcome
  cases houtcome with
  | fail k' hk' =>
    cases hk
    exact hk'
  | switch b => cases hk
  | pulse j hp hsized hstage => cases hk

/-- Settles O55: an operation in its place gets no new error, a call leaves the driver's result, and an
operation that starts with an error has failed one of the driver's checks. -/
theorem driverOperationsReturnOnlyTheirOwnErrors : Obligations.DriverOperationsReturnOnlyTheirOwnErrors := by
  rintro s t k ⟨-, hjob⟩ h hk
  obtain ⟨j, hj, h⟩ | ⟨-, -, rfl⟩ | ⟨c, rest, -, -, h⟩ | ⟨op, rest, hj, -, h⟩ := step_cases h
  · obtain ⟨hsized, hphase⟩ := hjob j hj
    obtain ⟨t', ht', -, hresult⟩ := driverStep_goesOn hsized hphase
    cases ht'.symm.trans h
    obtain hsame | ⟨v, hok⟩ := hresult
    · exact .inl (hsame.symm.trans hk)
    · cases hok.symm.trans hk
  · exact .inl hk
  · rw [(runCall_host h).2] at hk
    exact .inl hk
  · refine .inr ⟨hj, ?_, startOp_err h hk⟩
    rw [startOp_next h]
    exact .refl s

end Sys2Proof.Machine
end

section
/-! The checks of a driver operation (R131, R136, R139, R140): which one fails, in their order, and that a
failed one, like the soft-switch, touches neither the block nor its answer. -/

namespace Sys2Proof.Machine

/-! ## `validate` -/

/-- Every operation with an address begins with `validate` of it (R131). -/
theorem startOp_eq_validated {op : DriverOp} {n : Nat} (h : op.address = some n) (s : State) :
    ∃ k, startOp op s = validated n s k := by
  cases op <;> cases h <;> rw [startOp] <;> exact ⟨_, rfl⟩

theorem validated_of_out_of_range {n : Nat} (hn : 511 < n) (s : State) (k : Addr → Result) :
    validated n s k = failOp .addressOutOfRange s :=
  if_pos hn

theorem validated_of_stopped {n : Nat} (hn : n ≤ 511) {s : State} (hw : s.driver.isWorking = false)
    (k : Addr → Result) : validated n s k = failOp .deviceStopped s := by
  have hin : ¬ Config.maxAddress < n := Nat.not_lt.mpr hn
  rw [validated, if_neg hin, hw]
  rfl

theorem validated_of_working {n : Nat} (hn : n ≤ 511) {s : State} (hw : s.driver.isWorking = true)
    (k : Addr → Result) : validated n s k = k (BitVec.ofNat 9 n) := by
  have hin : ¬ Config.maxAddress < n := Nat.not_lt.mpr hn
  rw [validated, if_neg hin, if_pos hw]

/-! ## Operations that make no call -/

/-- An operation that returns at once leaves the block and its answer, and no operation under way. -/
theorem finishOp_withRequests {s : State} (hj : s.driver.job = none) (r : Answer) (rest : List Request) :
    finishOp r (s.withRequests rest) =
      { s with requests := rest, driver := { s.driver with result := some r } } := by
  simp [finishOp, State.withDriver, State.withRequests, hj]

theorem step_of_failOp {s : State} {op : DriverOp} {rest : List Request} {k : ErrorKind}
    (hj : s.driver.job = none) (hr : s.requests = .driver op :: rest)
    (h : startOp op (s.withRequests rest) = failOp k (s.withRequests rest)) :
    step s = .next { s with requests := rest, driver := { s.driver with result := some (.err k) } } := by
  rw [step_of_op hj hr, h, failOp, finishOp_withRequests hj]

/-- Settles O44: an operation with an address is `validate` first, whose two checks are its branches. -/
theorem driverValidatesBeforeAnyCall : Obligations.DriverValidatesBeforeAnyCall := by
  intro s op n rest hj hr hop
  obtain ⟨k, hk⟩ := startOp_eq_validated hop (s.withRequests rest)
  exact ⟨fun hn => step_of_failOp hj hr (hk.trans (validated_of_out_of_range hn _ k)),
    fun hn hw => step_of_failOp hj hr (hk.trans (validated_of_stopped (s := s.withRequests rest) hn hw k))⟩

theorem startWriteArray_of_length_zero (a : Addr) (data : Option (List Byte)) (s : State) :
    startWriteArray a data 0 s = failOp .invalidArgument s := by
  cases data <;> rfl

theorem startWriteArray_of_long_data (a : Addr) {data : List Byte} {len : Len} (hlen : len ≠ 0)
    (hdata : len.toNat ≤ data.length) (s : State) :
    startWriteArray a (some data) len s = startJob a len (.wren (data.take len.toNat)) s := by
  rw [startWriteArray, if_neg hlen, if_neg (Nat.not_lt.mpr hdata)]

/-- Settles O45: past `validate` the argument checks are the operations' first branches. -/
theorem arrayOperationsCheckTheirArguments : Obligations.ArrayOperationsCheckTheirArguments := by
  intro s op n rest hj hr hn hw hop
  have hvalid := validated_of_working (s := s.withRequests rest) hn hw
  apply step_of_failOp hj hr
  obtain rfl | ⟨data, rfl⟩ | ⟨len, rfl⟩ := hop
  · rw [startOp, hvalid, if_pos rfl]
  · rw [startOp, hvalid, startWriteArray_of_length_zero]
  · rw [startOp, hvalid, startWriteArray]

/-- Settles O46: both are setters that return at once. -/
theorem stopAndResumeSetOnlyTheSoftSwitch : Obligations.StopAndResumeSetOnlyTheSoftSwitch :=
  fun _ _ hj => ⟨fun hr => step_of_op hj hr, fun hr => step_of_op hj hr⟩

end Sys2Proof.Machine
end

section
/-! A pulse of the driver (R130): its three calls are three steps, which end as `pulseDone` of what the
transfer answered, in the state the transfer left with select deasserted. -/

namespace Sys2Proof.Machine

/-! ## The job under way is overwritten, not read -/

theorem useResponse_withJob (j j' : Job) (use : ReadUse) (bs : List Byte) (s : State) :
    useResponse j use bs (withJob j' s) = useResponse j use bs s := by
  cases use <;> cases bs <;> rfl

theorem pulseOk_withJob (j j' : Job) (v : Value) (s : State) :
    pulseOk j v (withJob j' s) = pulseOk j v s := by
  rw [pulseOk.eq_def, pulseOk.eq_def]
  split
  · exact useResponse_withJob j j' _ _ s
  all_goals rfl

theorem pulseDone_withJob (j j' : Job) (r : Option Answer) (s : State) :
    pulseDone j r (withJob j' s) = pulseDone j r s := by
  rcases r with _ | ⟨v | k⟩
  · rfl
  · exact pulseOk_withJob j j' v s
  · rfl

/-- What follows a pulse's end does not depend on the phase. -/
theorem pulseDone_phase (j : Job) (p : Phase) (r : Option Answer) (s : State) :
    pulseDone { j with phase := p } r s = pulseDone j r s := rfl

theorem runCall_withJob {c : Call} {s t : State} (h : runCall c s = .next t) (j : Job) :
    runCall c (withJob j s) = .next (withJob j t) := by
  rw [withJob, runCall_withDriver, h, withJob, (runCall_host h).2]
  rfl

/-! ## Three steps -/

section Pulse

variable {s u v : State} {j : Job}

theorem step_select (hj : s.driver.job = some j) (hp : j.phase = .select)
    (hu : runCall .assertSelect s = .next u) :
    step s = .next (withJob { j with phase := .transfer } u) := by
  cases (assertSelect_eq s).symm.trans hu
  rw [step_of_job hj, driverStep_select hp]

theorem step_transfer (hv : runCall (.transfer (some j.frame)) u = .next v) :
    step (withJob { j with phase := .transfer } u) = .next (withJob { j with phase := .release } v) := by
  rw [step_of_job (j := { j with phase := .transfer }) rfl, driverStep_transfer rfl]
  exact ⟨_, runCall_withJob hv _, rfl⟩

theorem step_release : step (withJob { j with phase := .release } v) =
    pulseDone j v.answer ((v.withSel false).withAnswer (.ok (.bytes []))) := by
  rw [step_of_job (j := { j with phase := .release }) rfl, driverStep_release rfl, pulseDone_phase]
  exact pulseDone_withJob j _ _ ((v.withSel false).withAnswer (.ok (.bytes [])))

variable (hj : s.driver.job = some j) (hp : j.phase = .select) (hu : runCall .assertSelect s = .next u)
  (hv : runCall (.transfer (some j.frame)) u = .next v)

include hj hp hu hv

theorem steps_two_of_pulse : steps 2 s = .next (withJob { j with phase := .release } v) := by
  rw [steps_succ_of_step (step_select hj hp hu), steps_succ_of_step (step_transfer hv)]
  rfl

theorem steps_three_of_pulse :
    steps 3 s = pulseDone j v.answer ((v.withSel false).withAnswer (.ok (.bytes []))) := by
  rw [steps_add_of_steps (steps_two_of_pulse hj hp hu hv) 1, steps_one, step_release]

end Pulse

/-- What the end of a pulse leaves, whatever follows it. -/
theorem pulseDone_frame {j : Job} {r : Option Answer} {s t : State} (h : pulseDone j r s = .next t) :
    SameBlock s t ∧ t.answer = s.answer ∧ t.requests = s.requests ∧
      t.driver.isWorking = s.driver.isWorking := by
  obtain ⟨a, rfl⟩ | ⟨stage, rfl⟩ := pulseDone_cases h <;> exact ⟨.refl s, rfl, rfl, rfl⟩

theorem steps_keep_invariant {n : Nat} {s t : State} (hs : Invariant s) (h : steps n s = .next t) :
    Invariant t := by
  induction n generalizing s with
  | zero => cases h; exact hs
  | succ n ih =>
    obtain ⟨u, hu, h⟩ := andThen_eq_next.mp h
    exact ih (everyStepKeepsTheInvariant s u hs hu) h

/-- Settles O47: after the transfer's step the deassert's is the end of the pulse, which writes the driver
alone, answers from the invariant, and answers an error at once. -/
theorem aPulseIsThreeCallsAndEndsDeasserted : Obligations.APulseIsThreeCallsAndEndsDeasserted := by
  intro s j hj hp
  obtain ⟨u, hu⟩ := runCall_next .assertSelect s
  obtain ⟨v, hv⟩ := runCall_next (.transfer (some j.frame)) u
  have htwo := steps_two_of_pulse hj hp hu hv
  have hthree := steps_three_of_pulse hj hp hu hv
  refine ⟨u, v, hu, hv, htwo, fun t ht => ?_, fun hs => ?_, fun k hk => ?_⟩
  · obtain ⟨⟨hsel, hwi, hwe, hmem⟩, ha, hr, hw⟩ := pulseDone_frame (hthree.symm.trans ht)
    exact ⟨hsel, hwi, hwe, hmem, ha, hr, hw⟩
  · obtain ⟨-, hjob⟩ := steps_keep_invariant hs htwo
    obtain ⟨hsized, -, htransferred⟩ := hjob _ rfl
    obtain ⟨_, h⟩ | ⟨_, h, -⟩ := pulseDone_of_transferred hsized htransferred
      ((v.withSel false).withAnswer (.ok (.bytes [])))
    · exact ⟨_, hthree.trans h⟩
    · exact ⟨_, hthree.trans h⟩
  · rw [hthree, hk, pulseDone_err]
    exact ⟨_, rfl⟩

/-! ## One call at a time -/

theorem driverStep_call {j : Job} {s t : State} (h : driverStep j s = .next t) :
    ∃ u, runCall j.call s = .next u ∧ SameBlock u t ∧ t.answer = u.answer ∧ t.requests = u.requests ∧
      t.driver.isWorking = u.driver.isWorking := by
  rw [Job.call]
  cases hp : j.phase with
  | select =>
    cases (driverStep_select hp).symm.trans h
    exact ⟨_, assertSelect_eq s, .refl _, rfl, rfl, rfl⟩
  | transfer =>
    obtain ⟨u, hu, rfl⟩ := (driverStep_transfer hp).mp h
    exact ⟨u, hu, .refl u, rfl, rfl, rfl⟩
  | release =>
    exact ⟨_, deassertSelect_eq s, pulseDone_frame ((driverStep_release hp).symm.trans h)⟩

/-- Settles O49: the step is the call its pulse is at, which leaves the host, and then a write of the driver's
job and result. -/
theorem anOperationRunsBeforeTheNextRequest : Obligations.AnOperationRunsBeforeTheNextRequest := by
  intro s t j hj h
  obtain ⟨u, hu, hsame, ha, hr, hw⟩ := driverStep_call ((step_of_job hj).symm.trans h)
  obtain ⟨hr', hd'⟩ := runCall_host hu
  exact ⟨⟨u, hu, hsame, ha⟩, hr.trans hr', hw.trans (congrArg _ hd')⟩

end Sys2Proof.Machine
end

section
/-! The driver's operations from their request to their result (R134 to R143): what one pulse of each kind
leaves, the WREN, WRITE, WRDI sequence, and each operation as its start followed by its pulses. -/

namespace Sys2Proof.Machine

/-! ## One pulse of each kind -/

/-- What a pulse leaves of `s`: these latches and this memory, select deasserted, and the deassert's answer. -/
def pulseLeaves (wi we : Bool) (mem : Memory) (s : State) : State :=
  { s with sel := false, wi := wi, we := we, mem := mem, answer := some (.ok (.bytes [])) }

/-- What the transfer of a pulse finds. -/
def selected (s : State) : State := (promote (s.withSel true)).withAnswer (.ok (.bytes []))

section Pulse

variable {s : State} {j : Job} (hj : s.driver.job = some j) (hp : j.phase = .select) (hsized : j.sized)

include hj hp hsized

theorem steps_three_of_exec {v : State} (hv : exec j.command (selected s) = .next v) :
    steps 3 s = pulseDone j v.answer ((v.withSel false).withAnswer (.ok (.bytes []))) := by
  have hsel : (selected s).sel = true := promote_sel (s.withSel true)
  exact steps_three_of_pulse hj hp (assertSelect_eq s)
    ((transfer_of_decode hsel (Job.decode_frame hsized)).trans hv)

theorem steps_read_pulse {use : ReadUse} (hstage : j.stage = .read use) :
    steps 3 s = useResponse j use (readRun s.mem j.addr j.length.toNat)
      (pulseLeaves false (s.we || s.wi) s.mem s) := by
  have hcommand : j.command = .read j.addr j.length := by rw [Job.command, hstage]
  rw [steps_three_of_exec hj hp hsized (hcommand ▸ exec_read j.addr j.length (selected s))]
  simp only [pulseDone, State.withAnswer_answer, pulseOk, hstage, selected, State.withAnswer_mem,
    promote_mem, State.withSel_mem]
  congr 1
  apply State.ext_fields <;> simp [pulseLeaves]

theorem steps_wren_pulse {data : List Byte} (hstage : j.stage = .wren data) :
    steps 3 s = nextPulse j (.write data) (pulseLeaves true (s.we || s.wi) s.mem s) := by
  have hcommand : j.command = .wren 0 := by rw [Job.command, hstage]
  rw [steps_three_of_exec hj hp hsized (hcommand ▸ exec_wren 0 (selected s))]
  simp only [pulseDone, pulseOk, hstage]
  congr 1
  apply State.ext_fields <;> simp [pulseLeaves, selected]

theorem steps_write_pulse {data : List Byte} (hstage : j.stage = .write data) (hwi : s.wi = true) :
    steps 3 s = nextPulse j .wrdi (pulseLeaves false true (writeRun s.mem j.addr data) s) := by
  have hcommand : j.command = .write j.addr data := by rw [Job.command, hstage]
  have hwe : (selected s).we = true := by simp [selected, hwi]
  rw [steps_three_of_exec hj hp hsized (hcommand ▸ exec_write_of_we j.addr data hwe)]
  simp only [pulseDone, State.withAnswer_answer, pulseOk, hstage]
  congr 1
  apply State.ext_fields <;> simp [pulseLeaves, selected, hwi]

theorem steps_wrdi_pulse (hstage : j.stage = .wrdi) :
    steps 3 s = .next (finishOp (.ok .unit) (pulseLeaves false false s.mem s)) := by
  have hcommand : j.command = .wrdi 0 := by rw [Job.command, hstage]
  rw [steps_three_of_exec hj hp hsized (hcommand ▸ exec_wrdi 0 (selected s))]
  simp only [pulseDone, pulseOk, hstage]
  congr 2
  apply State.ext_fields <;> simp [pulseLeaves, selected]

/-- The write sequence (R137 to R139): the WREN pulse leaves a pending WREN, which the WRITE pulse's assert
promotes, and the WRDI pulse disarms. -/
theorem steps_write_sequence {data : List Byte} (hstage : j.stage = .wren data) :
    steps 9 s =
      .next (finishOp (.ok .unit) (pulseLeaves false false (writeRun s.mem j.addr data) s)) := by
  have hdata : data.length = j.length.toNat := by simpa [Job.sized, hstage] using hsized
  rw [steps_add_of_steps (steps_wren_pulse hj hp hsized hstage) 6,
    steps_add_of_steps (steps_write_pulse (j := { j with stage := .write data, phase := .select })
      rfl rfl hdata rfl rfl) 3,
    steps_wrdi_pulse (j := { j with stage := .wrdi, phase := .select }) rfl rfl trivial rfl]
  rfl

end Pulse

/-! ## An operation from its request -/

/-- The driver has taken the request and its job's first pulse is due. -/
def begun (j : Job) (rest : List Request) (s : State) : State :=
  (s.withRequests rest).withDriver { s.driver with job := some j, result := none }

/-- The operation has returned `ok(v)`, its last pulse having left these latches and this memory. -/
def returned (v : Value) (rest : List Request) (wi we : Bool) (mem : Memory) (s : State) : State :=
  finishOp (.ok v) (pulseLeaves wi we mem (s.withRequests rest))

theorem returned_opDone (v : Value) (rest : List Request) (wi we : Bool) (mem : Memory) (s : State) :
    OpDone s (returned v rest wi we mem s) rest (.ok v) :=
  ⟨rfl, rfl, rfl⟩

section Operation

variable {s : State} {n : Nat} {rest : List Request} (hj : s.driver.job = none)
  (hn : n ≤ 511) (hw : s.driver.isWorking = true)

include hj hn hw

/-- A valid operation that starts a job takes its request in one step. -/
theorem step_of_validated {op : DriverOp} {k : Addr → Result} {len : Len} {stage : Stage}
    (hr : s.requests = .driver op :: rest)
    (hop : startOp op (s.withRequests rest) = validated n (s.withRequests rest) k)
    (hk : k (BitVec.ofNat 9 n) = startJob (BitVec.ofNat 9 n) len stage (s.withRequests rest)) :
    step s = .next (begun ⟨BitVec.ofNat 9 n, len, stage, .select⟩ rest s) := by
  rw [step_of_op hj hr, hop, validated_of_working (s := s.withRequests rest) hn hw, hk]
  rfl

theorem step_readBit (hr : s.requests = .driver (.readBit n) :: rest) :
    step s = .next (begun ⟨BitVec.ofNat 9 n, 1, .read .bit, .select⟩ rest s) :=
  step_of_validated hj hn hw hr (by rw [startOp]) rfl

theorem step_readByte (hr : s.requests = .driver (.readByte n) :: rest) :
    step s = .next (begun ⟨BitVec.ofNat 9 n, 1, .read .byte, .select⟩ rest s) :=
  step_of_validated hj hn hw hr (by rw [startOp]) rfl

theorem step_readByteArray {len : Len} (hr : s.requests = .driver (.readByteArray n len) :: rest)
    (hlen : len ≠ 0) : step s = .next (begun ⟨BitVec.ofNat 9 n, len, .read .array, .select⟩ rest s) :=
  step_of_validated hj hn hw hr (by rw [startOp]) (if_neg hlen)

theorem step_writeBit {v : BitVec 1} (hr : s.requests = .driver (.writeBit n v) :: rest) :
    step s = .next (begun ⟨BitVec.ofNat 9 n, 1, .read (.modify v), .select⟩ rest s) :=
  step_of_validated hj hn hw hr (by rw [startOp]) rfl

theorem step_writeByte {v : Byte} (hr : s.requests = .driver (.writeByte n v) :: rest) :
    step s = .next (begun ⟨BitVec.ofNat 9 n, 1, .wren [v], .select⟩ rest s) :=
  step_of_validated hj hn hw hr (by rw [startOp]) rfl

theorem step_writeByteArray {data : List Byte} {len : Len}
    (hr : s.requests = .driver (.writeByteArray n (some data) len) :: rest) (hlen : len ≠ 0)
    (hdata : len.toNat ≤ data.length) :
    step s = .next (begun ⟨BitVec.ofNat 9 n, len, .wren (data.take len.toNat), .select⟩ rest s) :=
  step_of_validated hj hn hw hr (by rw [startOp]) (startWriteArray_of_long_data _ hlen hdata _)

end Operation

section Sequence

variable {s : State} {a : Addr} {len : Len} {rest : List Request}

theorem steps_of_read {use : ReadUse} (h : step s = .next (begun ⟨a, len, .read use, .select⟩ rest s))
    (hsized : Job.sized ⟨a, len, .read use, .select⟩) :
    steps 4 s = useResponse ⟨a, len, .read use, .select⟩ use (readRun s.mem a len.toNat)
      (pulseLeaves false (s.we || s.wi) s.mem (begun ⟨a, len, .read use, .select⟩ rest s)) := by
  rw [steps_succ_of_step h 3, steps_read_pulse rfl rfl hsized rfl]
  rfl

theorem steps_of_write {data : List Byte}
    (h : step s = .next (begun ⟨a, len, .wren data, .select⟩ rest s)) (hdata : data.length = len.toNat) :
    steps 10 s = .next (returned .unit rest false false (writeRun s.mem a data) s) := by
  rw [steps_succ_of_step h 9,
    steps_write_sequence (j := ⟨a, len, .wren data, .select⟩) rfl rfl hdata rfl]
  rfl

end Sequence

/-! ## Single bytes and bits -/

@[simp] theorem wrapAddr_zero (a : Addr) : wrapAddr a 0 = a := by
  have ha := a.isLt
  apply BitVec.eq_of_toNat_eq
  rw [wrapAddr_toNat_mod, Config.memSize]
  omega

theorem readRun_one (m : Memory) (a : Addr) : readRun m a 1 = [m.read a] := by
  simp [readRun]

theorem writeRun_singleton (m : Memory) (a : Addr) (v : Byte) : writeRun m a [v] = m.write a v := by
  simp [writeRun, writeFrom]

theorem topBit_getLsbD (b : Byte) : (topBit b).getLsbD 0 = b.getLsbD 7 := by
  simp [topBit]

theorem mergeTopBit_getLsbD_seven (v : BitVec 1) (b : Byte) :
    (mergeTopBit v b).getLsbD 7 = v.getLsbD 0 := by
  simp [mergeTopBit]

theorem mergeTopBit_getLsbD_of_lt (v : BitVec 1) (b : Byte) {i : Nat} (hi : i < 7) :
    (mergeTopBit v b).getLsbD i = b.getLsbD i := by
  have hmask : ∀ k, k < 7 → (0x7F#8).getLsbD k = true := by decide
  simp [mergeTopBit, hi, hmask i hi]

/-! ## The writes -/

section Writes

variable {s : State} {n : Nat} {rest : List Request} (hj : s.driver.job = none) (hn : n ≤ 511)
  (hw : s.driver.isWorking = true)

include hj hn hw

theorem steps_writeByte {v : Byte} (hr : s.requests = .driver (.writeByte n v) :: rest) :
    steps 10 s = .next (returned .unit rest false false (s.mem.write (BitVec.ofNat 9 n) v) s) := by
  rw [steps_of_write (step_writeByte hj hn hw hr) rfl, writeRun_singleton]

theorem steps_writeBit {v : BitVec 1} (hr : s.requests = .driver (.writeBit n v) :: rest) :
    steps 13 s = .next (returned .unit rest false false
      (s.mem.write (BitVec.ofNat 9 n) (mergeTopBit v (s.mem.read (BitVec.ofNat 9 n)))) s) := by
  have hread := steps_of_read (step_writeBit hj hn hw hr) rfl
  rw [show (1 : Len).toNat = 1 from rfl, readRun_one] at hread
  have hwrite := steps_write_sequence (s := withJob ⟨BitVec.ofNat 9 n, 1,
    .wren [mergeTopBit v (s.mem.read (BitVec.ofNat 9 n))], .select⟩ (pulseLeaves false (s.we || s.wi) s.mem
      (begun ⟨BitVec.ofNat 9 n, 1, .read (.modify v), .select⟩ rest s))) rfl rfl rfl rfl
  rw [steps_add_of_steps hread 9, ← writeRun_singleton]
  exact hwrite

theorem steps_writeByteArray {data : List Byte} {len : Len}
    (hr : s.requests = .driver (.writeByteArray n (some data) len) :: rest) (hlen : len ≠ 0)
    (hdata : len.toNat ≤ data.length) :
    steps 10 s = .next (returned .unit rest false false
      (writeRun s.mem (BitVec.ofNat 9 n) (data.take len.toNat)) s) :=
  steps_of_write (step_writeByteArray hj hn hw hr hlen hdata) (List.length_take_of_le hdata)

end Writes

/-- Settles O50: writeByte is the write sequence of one byte, which starts from any latches. -/
theorem writeByteIsHonouredFromAnyLatchState : Obligations.WriteByteIsHonouredFromAnyLatchState :=
  fun _ _ _ _ hj hr hn hw => ⟨_, steps_writeByte hj hn hw hr, returned_opDone _ _ _ _ _ _, rfl,
    Memory.read_write_same _ _ _, fun _ hx => Memory.read_write_other _ _ hx⟩

/-- Settles O51: the byte read is merged with the bit and written back. -/
theorem writeBitChangesOnlyBitSeven : Obligations.WriteBitChangesOnlyBitSeven := by
  refine fun s n v rest hj hr hn hw => ⟨_, steps_writeBit hj hn hw hr, returned_opDone _ _ _ _ _ _, rfl,
    ?_, fun i hi => ?_, fun _ hx => Memory.read_write_other _ _ hx⟩
  · exact (congrArg (·.getLsbD 7) (Memory.read_write_same _ _ _)).trans (mergeTopBit_getLsbD_seven v _)
  · exact (congrArg (·.getLsbD i) (Memory.read_write_same _ _ _)).trans (mergeTopBit_getLsbD_of_lt v _ hi)

/-- Settles O52: the run of the first `L` data bytes, whose last 512 go to addresses no later one goes to. -/
theorem writeByteArrayStoresItsDataWrapping : Obligations.WriteByteArrayStoresItsDataWrapping := by
  intro s n data len rest hj hr hn hw hlen hdata
  have hlength : (data.take len.toNat).length = len.toNat := List.length_take_of_le hdata
  refine ⟨_, steps_writeByteArray hj hn hw hr hlen hdata, returned_opDone _ _ _ _ _ _, rfl,
    fun x hx => ?_, fun k b hk hlast hb => ?_⟩
  · exact writeRun_read_outside s.mem _ _ x fun k hk => hx k (hlength ▸ hk)
  · refine writeRun_read_of_last s.mem _ ?_ (hlength.trans_le hlast)
    rw [List.getElem?_take_of_lt hk, hb]

/-! ## The reads -/

theorem wrapAddr_ofNat {n : Nat} (hn : n ≤ 511) (k : Nat) :
    wrapAddr (BitVec.ofNat 9 n) k = BitVec.ofNat 9 ((n + k) % 512) := by
  rw [wrapAddr, Config.memSize, BitVec.toNat_ofNat, Nat.mod_eq_of_lt (by omega : n < 2 ^ 9)]

section Reads

variable {s : State} {n : Nat} {rest : List Request} (hj : s.driver.job = none) (hn : n ≤ 511)
  (hw : s.driver.isWorking = true)

include hj hn hw

theorem steps_readByte (hr : s.requests = .driver (.readByte n) :: rest) :
    steps 4 s = .next (returned (.byte (s.mem.read (BitVec.ofNat 9 n))) rest false (s.we || s.wi) s.mem s) := by
  rw [steps_of_read (step_readByte hj hn hw hr) rfl,
    show (1 : Len).toNat = 1 from rfl, readRun_one]
  rfl

theorem steps_readBit (hr : s.requests = .driver (.readBit n) :: rest) :
    steps 4 s = .next (returned (.bit (topBit (s.mem.read (BitVec.ofNat 9 n)))) rest false (s.we || s.wi)
      s.mem s) := by
  rw [steps_of_read (step_readBit hj hn hw hr) rfl,
    show (1 : Len).toNat = 1 from rfl, readRun_one]
  rfl

theorem steps_readByteArray {len : Len} (hr : s.requests = .driver (.readByteArray n len) :: rest)
    (hlen : len ≠ 0) :
    steps 4 s = .next (returned (.bytes (readRun s.mem (BitVec.ofNat 9 n) len.toNat)) rest false
      (s.we || s.wi) s.mem s) := by
  rw [steps_of_read (step_readByteArray hj hn hw hr hlen) hlen]
  rfl

end Reads

/-- Settles O53: each read is one READ pulse, whose answer is the run of memory from the address on. -/
theorem driverReadsReturnMemory : Obligations.DriverReadsReturnMemory := by
  intro s n op rest hj hr hn hw hop
  obtain rfl | rfl | ⟨len, rfl, hlen⟩ := hop
  · exact ⟨_, _, steps_readByte hj hn hw hr, returned_opDone _ _ _ _ _ _, rfl, rfl, rfl, fun _ => rfl,
      nofun, nofun⟩
  · exact ⟨_, _, steps_readBit hj hn hw hr, returned_opDone _ _ _ _ _ _, rfl, rfl, rfl, nofun,
      fun _ => ⟨_, rfl, topBit_getLsbD _⟩, nofun⟩
  · refine ⟨_, _, steps_readByteArray hj hn hw hr hlen, returned_opDone _ _ _ _ _ _, rfl, rfl, rfl, nofun,
      nofun, ?_⟩
    rintro len' ⟨⟩
    refine ⟨_, rfl, readRun_length _ _ _, fun k hk => ?_⟩
    rw [readRun_getElem? _ _ _ k hk, wrapAddr_ofNat hn]

/-- Settles O54: the fourth step after the write's tenth returns what the write stored, and both latches
are clear before the read's assert. -/
theorem writeByteThenReadByteYieldsTheByte : Obligations.WriteByteThenReadByteYieldsTheByte := by
  intro s n v rest hj hr hn hw
  have hread := steps_readByte (s := returned .unit (.driver (.readByte n) :: rest) false false
    (s.mem.write (BitVec.ofNat 9 n) v) s) rfl hn hw rfl
  refine ⟨_, (steps_add_of_steps (steps_writeByte hj hn hw hr) 4).trans hread, ⟨rfl, rfl, ?_⟩, rfl⟩
  have hbyte := Memory.read_write_same s.mem (BitVec.ofNat 9 n) v
  exact congrArg (fun b => { s.driver with job := none, result := some (.ok (.byte b)) }) hbyte

end Sys2Proof.Machine
end
